-- ==== Sys2Proof/Word.lean ====
section
/-! DEFINITION. The words of the block: the byte of `BUF`, the 16-bit and 32-bit quantities, the 64-bit command word.
All quantities are unsigned (spec 00_scope.md section 6). -/
namespace Sys2Proof

/-- A byte of `BUF`, `DIN` or `DOUT`; bit 7 is the most significant bit (20_memory.md R51). -/
abbrev Byte := BitVec 8

/-- A 16-bit quantity: sequence number, extension profile, extension word count. -/
abbrev Half := BitVec 16

/-- A 32-bit quantity: `LEN`, `VAL`, `A32`, timestamp, SSRC, a CSRC entry. -/
abbrev Word := BitVec 32

/-- The 64-bit command word `CW` (30_encoding.md R82). -/
abbrev CmdWord := BitVec 64

end Sys2Proof
end

