-- ==== Sys2Proof/Machine/Flags.lean ====
section
/-! DEFINITION. The bit fields of bytes 0 and 1 of the packet: extraction (20_memory.md R54) and the masked writes of
40_fixed_fields.md. The block has no condition codes (10_state.md R29): these are the packet's own flags and fields. -/
namespace Sys2Proof.Machine

/-- Version, byte 0 bits 7-6 (20_memory.md R54). -/
def fV (b0 : Byte) : Byte := (b0 >>> 6) &&& 0x03#8

/-- Padding flag, byte 0 bit 5 (20_memory.md R54). -/
def fP (b0 : Byte) : Byte := (b0 >>> 5) &&& 0x01#8

/-- Extension flag, byte 0 bit 4 (20_memory.md R54). -/
def fX (b0 : Byte) : Byte := (b0 >>> 4) &&& 0x01#8

/-- CSRC count, byte 0 bits 3-0 (20_memory.md R54). -/
def fCC (b0 : Byte) : Byte := b0 &&& 0x0F#8

/-- Marker, byte 1 bit 7 (20_memory.md R54). -/
def fM (b1 : Byte) : Byte := (b1 >>> 7) &&& 0x01#8

/-- Payload type, byte 1 bits 6-0 (20_memory.md R54). -/
def fPT (b1 : Byte) : Byte := b1 &&& 0x7F#8

/-- Byte 0 after `WRV v` (40_fixed_fields.md R112). -/
def putV (b0 : Byte) (v : BitVec 2) : Byte := (b0 &&& 0x3F#8) ||| (v.setWidth 8 <<< 6)

/-- Byte 0 after `SETP` (40_fixed_fields.md R114). -/
def setPBit (b0 : Byte) : Byte := b0 ||| 0x20#8

/-- Byte 0 after `CLRP` (40_fixed_fields.md R115). -/
def clrPBit (b0 : Byte) : Byte := b0 &&& 0xDF#8

/-- Byte 0 after `SETX` (40_fixed_fields.md R117). -/
def setXBit (b0 : Byte) : Byte := b0 ||| 0x10#8

/-- Byte 0 after `CLRX` (40_fixed_fields.md R118). -/
def clrXBit (b0 : Byte) : Byte := b0 &&& 0xEF#8

/-- Byte 0 after the CSRC count is written: only the low 4 bits of the value are used
(40_fixed_fields.md R120; 41_csrc.md R151). -/
def putCC (b0 : Byte) (v : Word) : Byte := (b0 &&& 0xF0#8) ||| (v.setWidth 8 &&& 0x0F#8)

/-- Byte 1 after `SETM` (40_fixed_fields.md R122). -/
def setMBit (b1 : Byte) : Byte := b1 ||| 0x80#8

/-- Byte 1 after `CLRM` (40_fixed_fields.md R123). -/
def clrMBit (b1 : Byte) : Byte := b1 &&& 0x7F#8

/-- Byte 1 after `WRPT v` (40_fixed_fields.md R125). -/
def putPT (b1 : Byte) (v : BitVec 7) : Byte := (b1 &&& 0x80#8) ||| v.setWidth 8

end Sys2Proof.Machine
end

