-- ==== Sys2Proof/Syntax.lean ====
section
/-! DEFINITION. The abstract commands, the normative level of the command set (30_encoding.md R80): one constructor per row of
spec/opcode_table.json. The count and length operands are not written, they are the length of the list (R92), and an
operand has the width of its field (R84). -/
namespace Sys2Proof

/-- The 33 commands (30_encoding.md R87), in the table's order. -/
inductive Instr where
  | alloc (size : Word)                              -- ALLOC  R190
  | load (bytes : List Byte)                         -- LOAD   R191
  | ser                                              -- SER    R192
  | free                                             -- FREE   R193
  | rdv                                              -- RDV    R111
  | rdp                                              -- RDP    R113
  | rdx                                              -- RDX    R116
  | rdcc                                             -- RDCC   R119
  | rdm                                              -- RDM    R121
  | rdpt                                             -- RDPT   R124
  | rdseq                                            -- RDSEQ  R126
  | rdts                                             -- RDTS   R128
  | rdssrc                                           -- RDSSRC R130
  | rdcsrc                                           -- RDCSRC R150
  | wrv (v : BitVec 2)                               -- WRV    R112
  | setp                                             -- SETP   R114
  | setx                                             -- SETX   R117
  | wrcc (v : Word)                                  -- WRCC   R120
  | setm                                             -- SETM   R122
  | wrpt (v : BitVec 7)                              -- WRPT   R125
  | wrseq (v : Half)                                 -- WRSEQ  R127
  | wrts (v : Word)                                  -- WRTS   R129
  | wrssrc (v : Word)                                -- WRSSRC R131
  | wrcsrc (entries : List Word)                     -- WRCSRC R151
  | clrp                                             -- CLRP   R115
  | clrx                                             -- CLRX   R118
  | clrm                                             -- CLRM   R123
  | hlen                                             -- HLEN   R160
  | plen                                             -- PLEN   R161
  | pview                                            -- PVIEW  R162
  | xprof                                            -- XPROF  R171
  | xview                                            -- XVIEW  R172
  | xput (profile : Half) (data : List Byte)         -- XPUT   R173
  deriving DecidableEq, Repr

end Sys2Proof
end

