-- ==== Sys2Proof/Machine/Operands.lean ====
section
/-! DEFINITION. Operand assembly and byte order: big-endian quantities (20_memory.md R52), and the byte form of a CSRC list on
`DIN` and `DOUT` (30_encoding.md R86). -/
namespace Sys2Proof.Machine

/-- The two bytes of `wr16`, most significant first (20_memory.md R52). -/
def be16 (v : Half) : List Byte := [v.extractLsb' 8 8, v.extractLsb' 0 8]

/-- The four bytes of `wr32`, most significant first (20_memory.md R52). -/
def be32 (v : Word) : List Byte := [v.extractLsb' 24 8, v.extractLsb' 16 8, v.extractLsb' 8 8, v.extractLsb' 0 8]

/-- `rd16(a)` over the bytes `rd` (20_memory.md R52). -/
def rd16 (rd : Nat → Byte) (a : Nat) : Half := rd a ++ rd (a + 1)

/-- `rd32(a)` over the bytes `rd` (20_memory.md R52). -/
def rd32 (rd : Nat → Byte) (a : Nat) : Word := rd a ++ rd (a + 1) ++ rd (a + 2) ++ rd (a + 3)

/-- The `DIN` or `DOUT` bytes of a CSRC list: entry `i` at bytes `4i .. 4i+3`, most significant first (30_encoding.md R86). -/
def entriesToBytes : List Word → List Byte
  | [] => []
  | c :: cs => be32 c ++ entriesToBytes cs

/-- The CSRC list in a byte string (30_encoding.md R86).
R85 makes the length a multiple of 4, so no byte is left over. -/
def bytesToEntries : List Byte → List Word
  | b0 :: b1 :: b2 :: b3 :: rest => (b0 ++ b1 ++ b2 ++ b3) :: bytesToEntries rest
  | _ => []

end Sys2Proof.Machine
end

