-- ==== Sys2Proof/Config.lean ====
section
/-! DEFINITION. What an implementation fixes, and the free values: values the spec leaves open, constants without a body,
so that no proof can rest on what they are.
The constants of 00_scope.md R6 (12, 4, 15, 127, 3, 4, 65535) are not parameters and stand as numerals in the formulas. -/
namespace Sys2Proof

/-- The smallest `BUF_CAP` (00_scope.md R5). -/
abbrev Config.capMin : Nat := 12

/-- The largest `BUF_CAP`, 2^32 - 1 (00_scope.md R5). -/
abbrev Config.capMax : Nat := 4294967295

/-- DESIGN CHOICE (log entry 1): the `BUF_CAP` that `State.reset` carries, the largest one R5 allows.
No statement rests on it: statements hold for every `bufCap` of the state. -/
abbrev Config.resetCap : Nat := Config.capMax

/-- FREE VALUE (log entry 5): what offset `offset` of `BUF` holds after reset number `k`, until something is written there
(10_state.md R34, R35: "a draw per byte, stable"). -/
opaque Config.resetByte (k offset : Nat) : Byte

/-- FREE VALUE (log entry 6): the byte that successful `ALLOC` number `k` leaves at offset `offset`
(44_lifecycle.md R190: "one draw per byte"). -/
opaque Config.allocByte (k offset : Nat) : Byte

end Sys2Proof
end

