-- ==== Sys2Proof/Machine/State.lean ====
section
/-! DEFINITION. The state of the block (10_state.md R20), the host's side of its port, and the ways a step can stop. -/
namespace Sys2Proof.Machine

/-- Status codes `ST` (60_exceptions.md R210).
The codes 0x6, 0x7 and 0xA to 0xF are never produced and have no name here (93_implementation_defined.md U12). -/
inductive Status where
  | ok            -- 0x0, success
  | errCapacity   -- 0x1, recoverable, `XPUT` (R212)
  | errDecode     -- 0x2, recoverable, `LOAD` (R214)
  | errState      -- 0x3, recoverable, every command (R216)
  | errIllegal    -- 0x4, recoverable, an illegal command word (R217)
  | errSize       -- 0x5, recoverable, `ALLOC` and `LOAD` (R215)
  | faultBounds   -- 0x8, fatal, a guard failed or the buffer is malformed (R213)
  | faulted       -- 0x9, fatal state, the command arrived while `FAULT` = 1 (R218)
  deriving DecidableEq, Repr

/-- A response `(ST, VAL, DOUT)` (30_encoding.md R83). -/
structure Response where
  st : Status
  val : Word
  dout : List Byte
  deriving DecidableEq, Repr

/-- What the host can do to the block (60_exceptions.md R231): issue a command `(CW, DIN)`, or reset. -/
inductive Event where
  | command (cw : CmdWord) (din : List Byte)
  | reset
  deriving DecidableEq, Repr

/-- The bytes of `BUF` that have been written: offset and byte, offsets strictly rising (log entry 7). -/
abbrev Memory := List Host.Cell

/-- The machine.
`buf`, `len`, `valid`, `fault`, `fcause` are the spec's five elements (10_state.md R20).
`bufCap` is the open parameter `BUF_CAP` (00_scope.md R5, log entry 1): no step changes it.
The rest is the model's own: `port`, what the host will do next, oldest first (log entry 2); `replies`, the responses it has
been given, oldest first (log entry 3); `resets` and `allocs`, which resets and `ALLOC`s there have been, the index of the free
values (log entries 5 and 6). -/
structure State where
  bufCap : Nat
  buf : Memory
  len : Word
  valid : Bool
  fault : Bool
  fcause : BitVec 4
  port : List Event
  replies : List Response
  resets : Nat
  allocs : Nat
  deriving DecidableEq, Repr

/-- Why the machine stops. No command of the block stops it: "every command produces a response in every state"
(93_implementation_defined.md section 2). -/
inductive Fault where
  /-- Raised by `step`, by no instruction: the host presents a `DIN` whose length is not the one the command word fixes, which
  "cannot be presented" (30_encoding.md R81).
  Safe: the model stops where the spec has no behaviour (log entry 4). -/
  | dinLength
  deriving DecidableEq, Repr

/-- Why the model gives no meaning. -/
inductive Refusal where
  /-- Raised by an arm of `exec` whose instruction has no meaning yet; no arm is left. Safe. -/
  | notModelled (mnemonic : String)
  deriving DecidableEq, Repr

/-- The state after reset (10_state.md R34): no packet, no fault, `LEN` 0, `BUF` unspecified (nothing listed).
`bufCap`, `port`, `replies`, `resets` and `allocs` are DESIGN CHOICE (log entries 1, 2, 3, 5, 6). -/
def State.reset : State where
  bufCap := Config.resetCap
  buf := []
  len := 0#32
  valid := false
  fault := false
  fcause := 0#4
  port := []
  replies := []
  resets := 0
  allocs := 0

end Sys2Proof.Machine
end

