-- ==== Sys2Proof/Machine/Ops.lean ====
section
/-! DEFINITION. The shared operations: the bytes of `BUF`, the bounds guard, the layout functions, responses, fault entry, reset,
and the common prologue of every command. -/
namespace Sys2Proof.Machine

/-! ## The bytes of `BUF` -/

/-- The canonical form of a memory: offsets strictly rising (log entry 7).
An unlisted offset has no value of its own, so no entry can repeat it. -/
def Memory.wf : Memory → Bool
  | [] => true
  | [_] => true
  | c :: d :: rest => decide (c.1 < d.1) && Memory.wf (d :: rest)

/-- The byte written last at an offset, if any was. -/
def Memory.get? : Memory → Nat → Option Byte
  | [], _ => none
  | c :: rest, a => if c.1 = a then some c.2 else Memory.get? rest a

/-- Cells for the bytes `bs` at offsets `a`, `a+1`, … -/
def cellsAt (a : Nat) : List Byte → Memory
  | [] => []
  | b :: bs => (a, b) :: cellsAt (a + 1) bs

/-- Store the bytes `bs` at offsets `a`, `a+1`, …, lowest offset first. -/
def Memory.put (m : Memory) (a : Nat) (bs : List Byte) : Memory :=
  m.filter (fun c => decide (c.1 < a)) ++ cellsAt a bs ++ m.filter (fun c => decide (a + bs.length ≤ c.1))

/-- What an offset reads as that nothing has written since reset: a free value, stable (10_state.md R34, R35; log entry 5). -/
def State.unwritten (s : State) (a : Nat) : Byte := Config.resetByte s.resets a

/-- `BUF[a]`, unguarded (00_scope.md section 6). Reading changes nothing (10_state.md R35). -/
def State.byte (s : State) (a : Nat) : Byte := (s.buf.get? a).getD (s.unwritten a)

/-- `[BUF[a], BUF[a+1], ..., BUF[a+n-1]]`, unguarded. -/
def State.bytes (s : State) (a n : Nat) : List Byte := (List.range n).map (fun k => s.byte (a + k))

/-- `BUF[a+k] <- bs[k]` for every `k`, unguarded. -/
def State.store (s : State) (a : Nat) (bs : List Byte) : State := { s with buf := s.buf.put a bs }

/-! ## The bounds guard (20_memory.md R59)

`none` stands for `raise FAULT_BOUNDS`. The sum `addr + n` is a natural number and does not wrap. -/

/-- `guard(addr, n)` passes for a buffer of `len` bytes. -/
def inBounds (len addr n : Nat) : Bool := decide (addr + n ≤ len)

/-- `guard(addr, n)` of the packet passes. -/
def State.guard (s : State) (addr n : Nat) : Bool := inBounds s.len.toNat addr n

/-- `MemRead(addr, 2)` over the bytes `rd` of a buffer of `len` bytes. -/
def guardedRead16 (rd : Nat → Byte) (len addr : Nat) : Option Half :=
  if inBounds len addr 2 then some (rd16 rd addr) else none

/-- `MemRead(addr, 1)`. -/
def State.memRead1 (s : State) (addr : Nat) : Option Byte := if s.guard addr 1 then some (s.byte addr) else none

/-- `MemRead(addr, 2)`. -/
def State.memRead2 (s : State) (addr : Nat) : Option Half := guardedRead16 s.byte s.len.toNat addr

/-- `MemRead(addr, 4)`. -/
def State.memRead4 (s : State) (addr : Nat) : Option Word := if s.guard addr 4 then some (rd32 s.byte addr) else none

/-- `MemReadBytes(addr, n)`. -/
def State.memReadBytes (s : State) (addr n : Nat) : Option (List Byte) :=
  if s.guard addr n then some (s.bytes addr n) else none

/-- `MemWriteBytes(addr, bs)`. -/
def State.memWriteBytes (s : State) (addr : Nat) (bs : List Byte) : Option State :=
  if s.guard addr bs.length then some (s.store addr bs) else none

/-- `MemWrite(addr, 1, v)`. -/
def State.memWrite1 (s : State) (addr : Nat) (v : Byte) : Option State := s.memWriteBytes addr [v]

/-- `MemWrite(addr, 2, v)`. -/
def State.memWrite2 (s : State) (addr : Nat) (v : Half) : Option State := s.memWriteBytes addr (be16 v)

/-- `MemWrite(addr, 4, v)`. -/
def State.memWrite4 (s : State) (addr : Nat) (v : Word) : Option State := s.memWriteBytes addr (be32 v)

/-! ## The layout functions (20_memory.md R54 to R58) -/

/-- `f_cc` of byte 0 as a number. -/
def ccOf (b0 : Byte) : Nat := (fCC b0).toNat

/-- `xoff` of byte 0: the first offset after the CSRC list (20_memory.md R55). -/
def xoffOf (b0 : Byte) : Nat := 12 + 4 * ccOf b0

/-- `hlen` of the bytes `rd` of a buffer of `len` bytes (20_memory.md R57; `LOAD` applies it to the bytes offered,
44_lifecycle.md R191). `none` when the extension flag is 1 and the word count lies outside the buffer (R56). -/
def headerLength (rd : Nat → Byte) (len : Nat) : Option Nat :=
  if fX (rd 0) = 1#8 then
    match guardedRead16 rd len (xoffOf (rd 0) + 2) with
    | none => none
    | some n => some (xoffOf (rd 0) + 4 + 4 * n.toNat)
  else some (xoffOf (rd 0))

/-- `f_cc()` (20_memory.md R54). -/
def State.cc (s : State) : Nat := ccOf (s.byte 0)

/-- `f_x() = 1` (20_memory.md R54). -/
def State.xflag (s : State) : Bool := fX (s.byte 0) == 1#8

/-- `xoff()` (20_memory.md R55). -/
def State.xoff (s : State) : Nat := xoffOf (s.byte 0)

/-- `xwords()`, asked for only when the extension flag is 1 (20_memory.md R56). -/
def State.xwords (s : State) : Option Half := s.memRead2 (s.xoff + 2)

/-- `hlen()` (20_memory.md R57); not compared with `LEN`. -/
def State.hlen (s : State) : Option Nat := headerLength s.byte s.len.toNat

/-- `plen()`: raises when `hlen()` does and when the buffer is malformed (20_memory.md R58). -/
def State.plen (s : State) : Option Nat :=
  match s.hlen with
  | none => none
  | some h => if h ≤ s.len.toNat then some (s.len.toNat - h) else none

/-- `pad(d)` (43_extension.md R170). -/
def pad (d : Nat) : Nat := (4 - d % 4) % 4

/-- `W(d) = ceil4(d)` (43_extension.md R170; 00_scope.md section 6). -/
def ceil4 (d : Nat) : Nat := (d + 3) / 4

/-- The bytes `XPUT` writes: profile, word count, data, zero padding (43_extension.md R173). -/
def extensionBlock (profile : Half) (data : List Byte) : List Byte :=
  be16 profile ++ be16 (BitVec.ofNat 16 (ceil4 data.length)) ++ data ++ List.replicate (pad data.length) 0x00#8

/-! ## Responses, fault entry, reset -/

/-- `respond(ST, VAL, DOUT)` (30_encoding.md R83). -/
def State.respond (s : State) (st : Status) (val : Word) (dout : List Byte) : State :=
  { s with replies := s.replies ++ [⟨st, val, dout⟩] }

/-- The 4-bit code of a status (60_exceptions.md R210). -/
def Status.code : Status → BitVec 4
  | .ok => 0x0#4
  | .errCapacity => 0x1#4
  | .errDecode => 0x2#4
  | .errState => 0x3#4
  | .errIllegal => 0x4#4
  | .errSize => 0x5#4
  | .faultBounds => 0x8#4
  | .faulted => 0x9#4

/-- A setter's answer: `respond(OK, 0, [])`. -/
def State.done (s : State) : State := s.respond .ok 0#32 []

/-- A scalar getter's answer: `respond(OK, v, [])`. -/
def State.value (s : State) (v : Word) : State := s.respond .ok v []

/-- `raise` of a status that does not set the latch: `respond(ST, 0, [])`, no state change (60_exceptions.md R211, R221). -/
def State.fail (s : State) (st : Status) : State := s.respond st 0#32 []

/-- FAULT ENTRY, `raise FAULT_BOUNDS`: the latch and its cause are set, nothing else changes (60_exceptions.md R221).
There is no return from it but reset (R223). -/
def State.raiseBounds (s : State) : State :=
  { s with fault := true, fcause := Status.faultBounds.code }.respond .faultBounds 0#32 []

/-- The reset event (70_reset_and_hazards.md R240): every element to its reset value (10_state.md R34), no response.
`BUF` becomes unspecified: nothing is listed, under a fresh index of the free values. -/
def State.resetEvent (s : State) : State :=
  { s with buf := [], len := 0#32, valid := false, fault := false, fcause := 0#4, resets := s.resets + 1 }

/-! ## The common prologue (60_exceptions.md R220)

Step 2, the illegal command word, concerns words that are no `Instr`: `illegalCommand` is what `step` does with one. -/

/-- Steps 1 and 3 for a command that needs a packet: `FAULTED`, then `ERR_STATE` while `VALID` = 0, then the command's `body`. -/
def withPacket (s body : State) : State :=
  if s.fault then s.fail .faulted else if s.valid then body else s.fail .errState

/-- Steps 1 and 3 for a command that creates a packet: `ERR_STATE` while `VALID` = 1. -/
def withoutPacket (s body : State) : State :=
  if s.fault then s.fail .faulted else if s.valid then s.fail .errState else body

/-- Steps 1 and 2 for an illegal command word (60_exceptions.md R217, R218). -/
def illegalCommand (s : State) : State := if s.fault then s.fail .faulted else s.fail .errIllegal

end Sys2Proof.Machine
end

