-- ==== Sys2Proof/Machine/Csrc.lean ====
section
/-! DEFINITION. The CSRC list commands (41_csrc.md R150 to R153). -/
namespace Sys2Proof.Machine

/-- `RDCSRC` (R150): `VAL` is the entry count, `DOUT` the bytes of the region. -/
def execRdcsrc (s : State) : Host.Outcome State Fault Refusal :=
  .next (withPacket s (
    match s.memReadBytes 12 (4 * s.cc) with
    | none => s.raiseBounds
    | some bytes => s.respond .ok (BitVec.ofNat 32 s.cc) bytes))

/-- `WRCSRC c` (R151): the guard first, then the count and the entries together; nothing that follows the list moves (R153).
A list longer than 15 has no command word, so the prologue's second check answers `ERR_ILLEGAL` (log entry 10). -/
def execWrcsrc (entries : List Word) (s : State) : Host.Outcome State Fault Refusal :=
  .next (
    if 15 < entries.length then illegalCommand s
    else withPacket s (
      if s.guard 12 (4 * entries.length) then
        ((s.store 0 [putCC (s.byte 0) (BitVec.ofNat 32 entries.length)]).store 12 (entriesToBytes entries)).done
      else s.raiseBounds))

end Sys2Proof.Machine
end

