-- ==== Sys2Proof/Machine/Derived.lean ====
section
/-! DEFINITION. The derived-length commands (42_derived.md R160 to R163). -/
namespace Sys2Proof.Machine

/-- `HLEN` (R160): not compared with `LEN`. -/
def execHlen (s : State) : Host.Outcome State Fault Refusal :=
  .next (withPacket s (
    match s.hlen with
    | none => s.raiseBounds
    | some h => s.value (BitVec.ofNat 32 h)))

/-- `PLEN` (R161): a malformed buffer faults. -/
def execPlen (s : State) : Host.Outcome State Fault Refusal :=
  .next (withPacket s (
    match s.plen with
    | none => s.raiseBounds
    | some p => s.value (BitVec.ofNat 32 p)))

/-- `PVIEW` (R162): the bytes after the header. -/
def execPview (s : State) : Host.Outcome State Fault Refusal :=
  .next (withPacket s (
    match s.hlen with
    | none => s.raiseBounds
    | some h =>
      if s.len.toNat < h then s.raiseBounds
      else
        match s.memReadBytes h (s.len.toNat - h) with
        | none => s.raiseBounds
        | some bytes => s.respond .ok (BitVec.ofNat 32 (s.len.toNat - h)) bytes))

end Sys2Proof.Machine
end

