-- ==== Sys2Proof/Machine/Extension.lean ====
section
/-! DEFINITION. The extension-header commands and the layout engine (43_extension.md R170 to R177). -/
namespace Sys2Proof.Machine

/-- `XPROF` (R171): 0 when the extension flag is 0. -/
def execXprof (s : State) : Host.Outcome State Fault Refusal :=
  .next (withPacket s (
    if s.xflag then
      match s.memRead2 s.xoff with
      | none => s.raiseBounds
      | some p => s.value (p.setWidth 32)
    else s.value 0#32))

/-- `XVIEW` (R172): the data region with its padding bytes (R175), empty when the extension flag is 0. -/
def execXview (s : State) : Host.Outcome State Fault Refusal :=
  .next (withPacket s (
    if s.xflag then
      match s.xwords with
      | none => s.raiseBounds
      | some n =>
        match s.memReadBytes (s.xoff + 4) (4 * n.toNat) with
        | none => s.raiseBounds
        | some bytes => s.respond .ok (BitVec.ofNat 32 (4 * n.toNat)) bytes
    else s.value 0#32))

/-- `XPUT profile, data` (R173): one capacity test, then the whole block; the extension flag is neither read nor written (R174),
and a word count over 65535 does not fit (R177). -/
def execXput (profile : Half) (data : List Byte) (s : State) : Host.Outcome State Fault Refusal :=
  .next (withPacket s (
    if 65535 < ceil4 data.length ∨ s.len.toNat < s.xoff + 4 + 4 * ceil4 data.length then s.fail .errCapacity
    else (s.store s.xoff (extensionBlock profile data)).done))

end Sys2Proof.Machine
end

