-- ==== Sys2Proof/Machine/FixedFields.lean ====
section
/-! DEFINITION. The fixed-header field commands (40_fixed_fields.md R110 to R131). Past the prologue none of them can fail, and
they use the unguarded byte accesses (R110). -/
namespace Sys2Proof.Machine

/-- `RDV` (R111). -/
def execRdv (s : State) : Host.Outcome State Fault Refusal :=
  .next (withPacket s (s.value ((fV (s.byte 0)).setWidth 32)))

/-- `WRV v` (R112). -/
def execWrv (v : BitVec 2) (s : State) : Host.Outcome State Fault Refusal :=
  .next (withPacket s (s.store 0 [putV (s.byte 0) v]).done)

/-- `RDP` (R113). -/
def execRdp (s : State) : Host.Outcome State Fault Refusal :=
  .next (withPacket s (s.value ((fP (s.byte 0)).setWidth 32)))

/-- `SETP` (R114). -/
def execSetp (s : State) : Host.Outcome State Fault Refusal :=
  .next (withPacket s (s.store 0 [setPBit (s.byte 0)]).done)

/-- `CLRP` (R115). -/
def execClrp (s : State) : Host.Outcome State Fault Refusal :=
  .next (withPacket s (s.store 0 [clrPBit (s.byte 0)]).done)

/-- `RDX` (R116). -/
def execRdx (s : State) : Host.Outcome State Fault Refusal :=
  .next (withPacket s (s.value ((fX (s.byte 0)).setWidth 32)))

/-- `SETX` (R117): one bit, no extension block is written or checked. -/
def execSetx (s : State) : Host.Outcome State Fault Refusal :=
  .next (withPacket s (s.store 0 [setXBit (s.byte 0)]).done)

/-- `CLRX` (R118): the bytes of any extension block stay. -/
def execClrx (s : State) : Host.Outcome State Fault Refusal :=
  .next (withPacket s (s.store 0 [clrXBit (s.byte 0)]).done)

/-- `RDCC` (R119). -/
def execRdcc (s : State) : Host.Outcome State Fault Refusal :=
  .next (withPacket s (s.value ((fCC (s.byte 0)).setWidth 32)))

/-- `WRCC v` (R120): any 32-bit value, the low 4 bits are used; no entry is written. -/
def execWrcc (v : Word) (s : State) : Host.Outcome State Fault Refusal :=
  .next (withPacket s (s.store 0 [putCC (s.byte 0) v]).done)

/-- `RDM` (R121). -/
def execRdm (s : State) : Host.Outcome State Fault Refusal :=
  .next (withPacket s (s.value ((fM (s.byte 1)).setWidth 32)))

/-- `SETM` (R122). -/
def execSetm (s : State) : Host.Outcome State Fault Refusal :=
  .next (withPacket s (s.store 1 [setMBit (s.byte 1)]).done)

/-- `CLRM` (R123). -/
def execClrm (s : State) : Host.Outcome State Fault Refusal :=
  .next (withPacket s (s.store 1 [clrMBit (s.byte 1)]).done)

/-- `RDPT` (R124). -/
def execRdpt (s : State) : Host.Outcome State Fault Refusal :=
  .next (withPacket s (s.value ((fPT (s.byte 1)).setWidth 32)))

/-- `WRPT v` (R125). -/
def execWrpt (v : BitVec 7) (s : State) : Host.Outcome State Fault Refusal :=
  .next (withPacket s (s.store 1 [putPT (s.byte 1) v]).done)

/-- `RDSEQ` (R126). -/
def execRdseq (s : State) : Host.Outcome State Fault Refusal :=
  .next (withPacket s (s.value ((rd16 s.byte 2).setWidth 32)))

/-- `WRSEQ v` (R127). -/
def execWrseq (v : Half) (s : State) : Host.Outcome State Fault Refusal :=
  .next (withPacket s (s.store 2 (be16 v)).done)

/-- `RDTS` (R128). -/
def execRdts (s : State) : Host.Outcome State Fault Refusal :=
  .next (withPacket s (s.value (rd32 s.byte 4)))

/-- `WRTS v` (R129). -/
def execWrts (v : Word) (s : State) : Host.Outcome State Fault Refusal :=
  .next (withPacket s (s.store 4 (be32 v)).done)

/-- `RDSSRC` (R130). -/
def execRdssrc (s : State) : Host.Outcome State Fault Refusal :=
  .next (withPacket s (s.value (rd32 s.byte 8)))

/-- `WRSSRC v` (R131). -/
def execWrssrc (v : Word) (s : State) : Host.Outcome State Fault Refusal :=
  .next (withPacket s (s.store 8 (be32 v)).done)

end Sys2Proof.Machine
end

