-- ==== Sys2Proof/Machine/Lifecycle.lean ====
section
/-! DEFINITION. The packet lifecycle commands (44_lifecycle.md R190 to R195). -/
namespace Sys2Proof.Machine

/-- The bytes a successful `ALLOC` leaves: one free value per byte (R190, log entry 6). -/
def drawnBytes (k size : Nat) : List Byte := (List.range size).map (Config.allocByte k)

/-- `ALLOC size` (R190). -/
def execAlloc (size : Word) (s : State) : Host.Outcome State Fault Refusal :=
  .next (withoutPacket s (
    if size.toNat < 12 ∨ s.bufCap < size.toNat then s.fail .errSize
    else { s.store 0 (drawnBytes s.allocs size.toNat) with len := size, valid := true, allocs := s.allocs + 1 }.done))

/-- `LOAD bytes` (R191): only lengths are validated (R195), on the bytes offered, before anything is written. -/
def execLoad (bytes : List Byte) (s : State) : Host.Outcome State Fault Refusal :=
  .next (withoutPacket s (
    if s.bufCap < bytes.length then s.fail .errSize
    else if bytes.length < 12 then s.fail .errDecode
    else
      match headerLength (fun a => bytes.getD a 0#8) bytes.length with
      | none => s.fail .errDecode
      | some h =>
        if bytes.length < h then s.fail .errDecode
        else { s.store 0 bytes with len := BitVec.ofNat 32 bytes.length, valid := true }.done))

/-- `SER` (R192): the packet verbatim; the guard cannot fail. -/
def execSer (s : State) : Host.Outcome State Fault Refusal :=
  .next (withPacket s (
    match s.memReadBytes 0 s.len.toNat with
    | none => s.raiseBounds
    | some bytes => s.respond .ok s.len bytes))

/-- `FREE` (R193): `BUF` is not written, the fault latch is not cleared. -/
def execFree (s : State) : Host.Outcome State Fault Refusal :=
  .next (withPacket s { s with valid := false, len := 0#32 }.done)

end Sys2Proof.Machine
end

