-- ==== Sys2Proof/Machine/Dispatch.lean ====
section
/-! DEFINITION. One arm per command: `exec` calls its meaning. -/
namespace Sys2Proof.Machine

def exec (i : Instr) (s : State) : Host.Outcome State Fault Refusal :=
  match i with
  | .alloc size => Sys2Proof.Machine.execAlloc size s
  | .load bytes => Sys2Proof.Machine.execLoad bytes s
  | .ser => Sys2Proof.Machine.execSer s
  | .free => Sys2Proof.Machine.execFree s
  | .rdv => Sys2Proof.Machine.execRdv s
  | .rdp => Sys2Proof.Machine.execRdp s
  | .rdx => Sys2Proof.Machine.execRdx s
  | .rdcc => Sys2Proof.Machine.execRdcc s
  | .rdm => Sys2Proof.Machine.execRdm s
  | .rdpt => Sys2Proof.Machine.execRdpt s
  | .rdseq => Sys2Proof.Machine.execRdseq s
  | .rdts => Sys2Proof.Machine.execRdts s
  | .rdssrc => Sys2Proof.Machine.execRdssrc s
  | .rdcsrc => Sys2Proof.Machine.execRdcsrc s
  | .wrv v => Sys2Proof.Machine.execWrv v s
  | .setp => Sys2Proof.Machine.execSetp s
  | .setx => Sys2Proof.Machine.execSetx s
  | .wrcc v => Sys2Proof.Machine.execWrcc v s
  | .setm => Sys2Proof.Machine.execSetm s
  | .wrpt v => Sys2Proof.Machine.execWrpt v s
  | .wrseq v => Sys2Proof.Machine.execWrseq v s
  | .wrts v => Sys2Proof.Machine.execWrts v s
  | .wrssrc v => Sys2Proof.Machine.execWrssrc v s
  | .wrcsrc entries => Sys2Proof.Machine.execWrcsrc entries s
  | .clrp => Sys2Proof.Machine.execClrp s
  | .clrx => Sys2Proof.Machine.execClrx s
  | .clrm => Sys2Proof.Machine.execClrm s
  | .hlen => Sys2Proof.Machine.execHlen s
  | .plen => Sys2Proof.Machine.execPlen s
  | .pview => Sys2Proof.Machine.execPview s
  | .xprof => Sys2Proof.Machine.execXprof s
  | .xview => Sys2Proof.Machine.execXview s
  | .xput profile data => Sys2Proof.Machine.execXput profile data s

end Sys2Proof.Machine
end

