-- ==== Sys2Proof/WellFormed.lean ====
section
/-! DEFINITION. Which abstract commands have a command word: the counts and lengths fit the operand fields
(30_encoding.md R84, R85). Every other operand has the width of its field already. -/
namespace Sys2Proof

/-- The command has a command word.
`LOAD` and `XPUT`: the length fits `A32`.
`WRCSRC`: at most 15 entries, "a list longer than 15 cannot be expressed" (41_csrc.md R151). -/
def Instr.wellFormed : Instr → Bool
  | .load bytes => decide (bytes.length < 4294967296)
  | .xput _ data => decide (data.length < 4294967296)
  | .wrcsrc entries => decide (entries.length ≤ 15)
  | .alloc _ | .ser | .free | .rdv | .rdp | .rdx | .rdcc | .rdm | .rdpt | .rdseq | .rdts | .rdssrc | .rdcsrc | .wrv _ | .setp
  | .setx | .wrcc _ | .setm | .wrpt _ | .wrseq _ | .wrts _ | .wrssrc _ | .clrp | .clrx | .clrm | .hlen | .plen | .pview
  | .xprof | .xview => true

end Sys2Proof
end

