-- ==== Sys2Proof/Decode.lean ====
section
/-! DEFINITION. The command word and its decoder (30_encoding.md R82 to R91), the encoder after it, and the two entry points the
host's checks use. The decoder follows the fields of R82, the operand widths of R84 and the opcode map of R87, and names the
reason of R89 for which a word is illegal. `Op.mask` and `Op.pattern` are the rows of spec/opcode_table.json (R88). -/
namespace Sys2Proof

/-! ## Fields of the command word -/

/-- `OPC`, bits 63:56 (30_encoding.md R82). -/
def CmdWord.opc (w : CmdWord) : BitVec 8 := w.extractLsb' 56 8

/-- `RSV`, bits 55:48 (30_encoding.md R82). -/
def CmdWord.rsv (w : CmdWord) : BitVec 8 := w.extractLsb' 48 8

/-- `A16`, bits 47:32 (30_encoding.md R82). -/
def CmdWord.a16 (w : CmdWord) : Half := w.extractLsb' 32 16

/-- `A32`, bits 31:0 (30_encoding.md R82). -/
def CmdWord.a32 (w : CmdWord) : Word := w.extractLsb' 0 32

/-- The command word with the given fields (30_encoding.md R82). -/
def CmdWord.ofFields (opc rsv : BitVec 8) (a16 : Half) (a32 : Word) : CmdWord := opc ++ rsv ++ a16 ++ a32

/-! ## The opcode map -/

/-- The rows of the opcode map (30_encoding.md R87). -/
inductive Op where
  | alloc | load | ser | free | rdv | rdp | rdx | rdcc | rdm | rdpt | rdseq | rdts | rdssrc | rdcsrc | wrv | setp
  | setx | wrcc | setm | wrpt | wrseq | wrts | wrssrc | wrcsrc | clrp | clrx | clrm | hlen | plen | pview | xprof
  | xview | xput
  deriving DecidableEq, Repr

/-- All rows, in the table's order. -/
def Op.all : List Op :=
  [.alloc, .load, .ser, .free, .rdv, .rdp, .rdx, .rdcc, .rdm, .rdpt] ++
  [.rdseq, .rdts, .rdssrc, .rdcsrc, .wrv, .setp, .setx, .wrcc, .setm, .wrpt] ++
  [.wrseq, .wrts, .wrssrc, .wrcsrc, .clrp, .clrx, .clrm, .hlen, .plen, .pview, .xprof, .xview, .xput]

/-- `OPC` of each row (30_encoding.md R87). -/
def Op.opc : Op → BitVec 8
  | .alloc => 0x01#8
  | .load => 0x02#8
  | .ser => 0x03#8
  | .free => 0x04#8
  | .rdv => 0x10#8
  | .rdp => 0x11#8
  | .rdx => 0x12#8
  | .rdcc => 0x13#8
  | .rdm => 0x14#8
  | .rdpt => 0x15#8
  | .rdseq => 0x16#8
  | .rdts => 0x17#8
  | .rdssrc => 0x18#8
  | .rdcsrc => 0x19#8
  | .wrv => 0x20#8
  | .setp => 0x21#8
  | .setx => 0x22#8
  | .wrcc => 0x23#8
  | .setm => 0x24#8
  | .wrpt => 0x25#8
  | .wrseq => 0x26#8
  | .wrts => 0x27#8
  | .wrssrc => 0x28#8
  | .wrcsrc => 0x29#8
  | .clrp => 0x31#8
  | .clrx => 0x32#8
  | .clrm => 0x34#8
  | .hlen => 0x40#8
  | .plen => 0x41#8
  | .pview => 0x42#8
  | .xprof => 0x50#8
  | .xview => 0x51#8
  | .xput => 0x52#8

/-- How many low bits of `A32` the command uses as an operand (30_encoding.md R84); the bits above must be 0. -/
def Op.a32Bits : Op → Nat
  | .alloc => 32
  | .load => 32
  | .ser => 0
  | .free => 0
  | .rdv => 0
  | .rdp => 0
  | .rdx => 0
  | .rdcc => 0
  | .rdm => 0
  | .rdpt => 0
  | .rdseq => 0
  | .rdts => 0
  | .rdssrc => 0
  | .rdcsrc => 0
  | .wrv => 2
  | .setp => 0
  | .setx => 0
  | .wrcc => 32
  | .setm => 0
  | .wrpt => 7
  | .wrseq => 16
  | .wrts => 32
  | .wrssrc => 32
  | .wrcsrc => 4
  | .clrp => 0
  | .clrx => 0
  | .clrm => 0
  | .hlen => 0
  | .plen => 0
  | .pview => 0
  | .xprof => 0
  | .xview => 0
  | .xput => 32

/-- `A16` is an operand of `XPUT` alone (30_encoding.md R82). -/
def Op.usesA16 : Op → Bool
  | .xput => true
  | .alloc | .load | .ser | .free | .rdv | .rdp | .rdx | .rdcc | .rdm | .rdpt | .rdseq | .rdts | .rdssrc | .rdcsrc
  | .wrv | .setp | .setx | .wrcc | .setm | .wrpt | .wrseq | .wrts | .wrssrc | .wrcsrc | .clrp | .clrx | .clrm
  | .hlen | .plen | .pview | .xprof | .xview => false

/-- `match` of the row in spec/opcode_table.json (30_encoding.md R88). -/
def Op.pattern : Op → CmdWord
  | .alloc => 0x0100000000000000#64
  | .load => 0x0200000000000000#64
  | .ser => 0x0300000000000000#64
  | .free => 0x0400000000000000#64
  | .rdv => 0x1000000000000000#64
  | .rdp => 0x1100000000000000#64
  | .rdx => 0x1200000000000000#64
  | .rdcc => 0x1300000000000000#64
  | .rdm => 0x1400000000000000#64
  | .rdpt => 0x1500000000000000#64
  | .rdseq => 0x1600000000000000#64
  | .rdts => 0x1700000000000000#64
  | .rdssrc => 0x1800000000000000#64
  | .rdcsrc => 0x1900000000000000#64
  | .wrv => 0x2000000000000000#64
  | .setp => 0x2100000000000000#64
  | .setx => 0x2200000000000000#64
  | .wrcc => 0x2300000000000000#64
  | .setm => 0x2400000000000000#64
  | .wrpt => 0x2500000000000000#64
  | .wrseq => 0x2600000000000000#64
  | .wrts => 0x2700000000000000#64
  | .wrssrc => 0x2800000000000000#64
  | .wrcsrc => 0x2900000000000000#64
  | .clrp => 0x3100000000000000#64
  | .clrx => 0x3200000000000000#64
  | .clrm => 0x3400000000000000#64
  | .hlen => 0x4000000000000000#64
  | .plen => 0x4100000000000000#64
  | .pview => 0x4200000000000000#64
  | .xprof => 0x5000000000000000#64
  | .xview => 0x5100000000000000#64
  | .xput => 0x5200000000000000#64

/-- `mask` of the row in spec/opcode_table.json (30_encoding.md R88). -/
def Op.mask : Op → CmdWord
  | .alloc => 0xFFFFFFFF00000000#64
  | .load => 0xFFFFFFFF00000000#64
  | .ser => 0xFFFFFFFFFFFFFFFF#64
  | .free => 0xFFFFFFFFFFFFFFFF#64
  | .rdv => 0xFFFFFFFFFFFFFFFF#64
  | .rdp => 0xFFFFFFFFFFFFFFFF#64
  | .rdx => 0xFFFFFFFFFFFFFFFF#64
  | .rdcc => 0xFFFFFFFFFFFFFFFF#64
  | .rdm => 0xFFFFFFFFFFFFFFFF#64
  | .rdpt => 0xFFFFFFFFFFFFFFFF#64
  | .rdseq => 0xFFFFFFFFFFFFFFFF#64
  | .rdts => 0xFFFFFFFFFFFFFFFF#64
  | .rdssrc => 0xFFFFFFFFFFFFFFFF#64
  | .rdcsrc => 0xFFFFFFFFFFFFFFFF#64
  | .wrv => 0xFFFFFFFFFFFFFFFC#64
  | .setp => 0xFFFFFFFFFFFFFFFF#64
  | .setx => 0xFFFFFFFFFFFFFFFF#64
  | .wrcc => 0xFFFFFFFF00000000#64
  | .setm => 0xFFFFFFFFFFFFFFFF#64
  | .wrpt => 0xFFFFFFFFFFFFFF80#64
  | .wrseq => 0xFFFFFFFFFFFF0000#64
  | .wrts => 0xFFFFFFFF00000000#64
  | .wrssrc => 0xFFFFFFFF00000000#64
  | .wrcsrc => 0xFFFFFFFFFFFFFFF0#64
  | .clrp => 0xFFFFFFFFFFFFFFFF#64
  | .clrx => 0xFFFFFFFFFFFFFFFF#64
  | .clrm => 0xFFFFFFFFFFFFFFFF#64
  | .hlen => 0xFFFFFFFFFFFFFFFF#64
  | .plen => 0xFFFFFFFFFFFFFFFF#64
  | .pview => 0xFFFFFFFFFFFFFFFF#64
  | .xprof => 0xFFFFFFFFFFFFFFFF#64
  | .xview => 0xFFFFFFFFFFFFFFFF#64
  | .xput => 0xFFFF000000000000#64

/-- The row with this `OPC`. -/
def Op.ofOpc (b : BitVec 8) : Option Op := Op.all.find? (fun o => o.opc == b)

/-! ## Decoding -/

/-- Why bytes on the port are no command.
The first five are the illegal words of 30_encoding.md R89, all answered `ERR_ILLEGAL`.
`dinLength`: `DIN` has not the length R85 gives; "a `DIN` of the wrong length cannot be presented" (R81).
`truncated`: a byte string ends before the command word and its `DIN` do. -/
inductive Reject where
  | unknownOpcode
  | nonzeroRSV
  | nonzeroA16
  | nonzeroA32
  | operandRange
  | dinLength
  | truncated
  deriving DecidableEq, Repr

/-- The row a command word selects, or why it is illegal (30_encoding.md R84, R88, R89).
It reads the word alone, no byte of `DIN` (R91). -/
def decodeWord (w : CmdWord) : Except Reject Op :=
  match Op.ofOpc w.opc with
  | none => .error .unknownOpcode
  | some o =>
    if w.rsv ≠ 0#8 then .error .nonzeroRSV
    else if o.usesA16 = false ∧ w.a16 ≠ 0#16 then .error .nonzeroA16
    else if 2 ^ o.a32Bits ≤ w.a32.toNat then .error (if o.a32Bits = 0 then .nonzeroA32 else .operandRange)
    else .ok o

/-- Length of `DIN` in bytes, from the command word alone; 0 for an illegal word (30_encoding.md R85, R91). -/
def dinBytes (w : CmdWord) : Nat :=
  match decodeWord w with
  | .error _ => 0
  | .ok o =>
    match o with
    | .load | .xput => w.a32.toNat
    | .wrcsrc => 4 * w.a32.toNat
    | .alloc | .ser | .free | .rdv | .rdp | .rdx | .rdcc | .rdm | .rdpt | .rdseq | .rdts | .rdssrc | .rdcsrc | .wrv
    | .setp | .setx | .wrcc | .setm | .wrpt | .wrseq | .wrts | .wrssrc | .clrp | .clrx | .clrm | .hlen | .plen
    | .pview | .xprof | .xview => 0

/-- The abstract command of a legal word and its `DIN` (30_encoding.md R84, R85, R86). -/
def Op.instr (o : Op) (w : CmdWord) (din : List Byte) : Instr :=
  match o with
  | .alloc => .alloc w.a32
  | .load => .load din
  | .ser => .ser
  | .free => .free
  | .rdv => .rdv
  | .rdp => .rdp
  | .rdx => .rdx
  | .rdcc => .rdcc
  | .rdm => .rdm
  | .rdpt => .rdpt
  | .rdseq => .rdseq
  | .rdts => .rdts
  | .rdssrc => .rdssrc
  | .rdcsrc => .rdcsrc
  | .wrv => .wrv (w.a32.setWidth 2)
  | .setp => .setp
  | .setx => .setx
  | .wrcc => .wrcc w.a32
  | .setm => .setm
  | .wrpt => .wrpt (w.a32.setWidth 7)
  | .wrseq => .wrseq (w.a32.setWidth 16)
  | .wrts => .wrts w.a32
  | .wrssrc => .wrssrc w.a32
  | .wrcsrc => .wrcsrc (Machine.bytesToEntries din)
  | .clrp => .clrp
  | .clrx => .clrx
  | .clrm => .clrm
  | .hlen => .hlen
  | .plen => .plen
  | .pview => .pview
  | .xprof => .xprof
  | .xview => .xview
  | .xput => .xput w.a16 din

/-- The decoder of the command port: a command is a pair `(CW, DIN)` (30_encoding.md R81). -/
def decodeCommand (w : CmdWord) (din : List Byte) : Except Reject Instr :=
  if din.length ≠ dinBytes w then .error .dinLength
  else
    match decodeWord w with
    | .error e => .error e
    | .ok o => .ok (o.instr w din)

/-- The command word written as bytes, most significant first (30_encoding.md R82). -/
def CmdWord.toBytes (w : CmdWord) : List Byte :=
  [w.extractLsb' 56 8, w.extractLsb' 48 8, w.extractLsb' 40 8, w.extractLsb' 32 8,
    w.extractLsb' 24 8, w.extractLsb' 16 8, w.extractLsb' 8 8, w.extractLsb' 0 8]

/-- The decoder on a byte string: eight bytes of command word, most significant first (30_encoding.md R82), then as many bytes of
`DIN` as the word fixes (R91), then the rest. DESIGN CHOICE (log entry 12): `DIN` follows the word. -/
def decodeBytes : List Byte → Except Reject (Instr × List Byte)
  | b7 :: b6 :: b5 :: b4 :: b3 :: b2 :: b1 :: b0 :: rest =>
    let w : CmdWord := b7 ++ b6 ++ b5 ++ b4 ++ b3 ++ b2 ++ b1 ++ b0
    if rest.length < dinBytes w then .error .truncated
    else
      match decodeCommand w (rest.take (dinBytes w)) with
      | .error e => .error e
      | .ok i => .ok (i, rest.drop (dinBytes w))
  | _ => .error .truncated

/-! ## Encoding -/

/-- The row of an abstract command. -/
def Instr.op : Instr → Op
  | .alloc _ => .alloc
  | .load _ => .load
  | .ser => .ser
  | .free => .free
  | .rdv => .rdv
  | .rdp => .rdp
  | .rdx => .rdx
  | .rdcc => .rdcc
  | .rdm => .rdm
  | .rdpt => .rdpt
  | .rdseq => .rdseq
  | .rdts => .rdts
  | .rdssrc => .rdssrc
  | .rdcsrc => .rdcsrc
  | .wrv _ => .wrv
  | .setp => .setp
  | .setx => .setx
  | .wrcc _ => .wrcc
  | .setm => .setm
  | .wrpt _ => .wrpt
  | .wrseq _ => .wrseq
  | .wrts _ => .wrts
  | .wrssrc _ => .wrssrc
  | .wrcsrc _ => .wrcsrc
  | .clrp => .clrp
  | .clrx => .clrx
  | .clrm => .clrm
  | .hlen => .hlen
  | .plen => .plen
  | .pview => .pview
  | .xprof => .xprof
  | .xview => .xview
  | .xput _ _ => .xput

/-- The `A16` operand: the profile of `XPUT`, else 0 (30_encoding.md R82, R84). -/
def Instr.a16 : Instr → Half
  | .xput profile _ => profile
  | .alloc _ | .load _ | .ser | .free | .rdv | .rdp | .rdx | .rdcc | .rdm | .rdpt | .rdseq | .rdts | .rdssrc
  | .rdcsrc | .wrv _ | .setp | .setx | .wrcc _ | .setm | .wrpt _ | .wrseq _ | .wrts _ | .wrssrc _ | .wrcsrc _
  | .clrp | .clrx | .clrm | .hlen | .plen | .pview | .xprof | .xview => 0#16

/-- The `A32` operand: a value, a size, a count or a length, else 0 (30_encoding.md R82, R84, R85). -/
def Instr.a32 : Instr → Word
  | .alloc v | .wrcc v | .wrts v | .wrssrc v => v
  | .wrv v => v.setWidth 32
  | .wrpt v => v.setWidth 32
  | .wrseq v => v.setWidth 32
  | .load bytes => BitVec.ofNat 32 bytes.length
  | .wrcsrc entries => BitVec.ofNat 32 entries.length
  | .xput _ data => BitVec.ofNat 32 data.length
  | .ser | .free | .rdv | .rdp | .rdx | .rdcc | .rdm | .rdpt | .rdseq | .rdts | .rdssrc | .rdcsrc | .setp | .setx
  | .setm | .clrp | .clrx | .clrm | .hlen | .plen | .pview | .xprof | .xview => 0#32

/-- The `DIN` of a command (30_encoding.md R85, R86). -/
def Instr.din : Instr → List Byte
  | .load bytes => bytes
  | .wrcsrc entries => Machine.entriesToBytes entries
  | .xput _ data => data
  | .alloc _ | .ser | .free | .rdv | .rdp | .rdx | .rdcc | .rdm | .rdpt | .rdseq | .rdts | .rdssrc | .rdcsrc
  | .wrv _ | .setp | .setx | .wrcc _ | .setm | .wrpt _ | .wrseq _ | .wrts _ | .wrssrc _ | .clrp | .clrx | .clrm
  | .hlen | .plen | .pview | .xprof | .xview => []

/-- The command word of a command: `RSV` is 0 (30_encoding.md R82, R87). -/
def encodeWord (i : Instr) : CmdWord := CmdWord.ofFields i.op.opc 0#8 i.a16 i.a32

/-- The words of a command: `(CW, DIN)` (30_encoding.md R81). -/
def encode (i : Instr) : CmdWord × List Byte := (encodeWord i, i.din)

/-- The words of a command written as bytes. -/
def encodeBytes (i : Instr) : List Byte := (encodeWord i).toBytes ++ i.din

/-! ## Entry points of the host's checks -/

/-- The command word in a number whose bits are numbered as spec/opcode_table.json numbers them: the one 64-bit word is the
command word, bit 0 its least significant bit; bits at `nbits` and above are 0. -/
def tableWord (nbits w : Nat) : CmdWord := BitVec.ofNat 64 (w % 2 ^ nbits)

/-- The `DIN` bytes above the command word in such a number: byte `k` at bits `64+8k` and up, zero at `nbits` and above. -/
def tableDin (nbits w : Nat) : List Byte :=
  (List.range (dinBytes (tableWord nbits w))).map (fun k => BitVec.ofNat 8 ((w % 2 ^ nbits) >>> (64 + 8 * k)))

/-- What the decoder reads from the bytes of an opcode-table word. -/
def decodeTableWord (nbits w : Nat) : Option Instr :=
  match decodeBytes ((tableWord nbits w).toBytes ++ tableDin nbits w) with
  | .ok (i, []) => some i
  | .ok (_, _ :: _) => none
  | .error _ => none

end Sys2Proof
end

