-- ==== Sys2Proof/Machine/Port.lean ====
section
/-! DEFINITION. What the command port does with a command word and `DIN` that are no command. -/
namespace Sys2Proof.Machine

/-- An illegal word is answered (60_exceptions.md R217, R218, R220).
A `DIN` of another length than the word fixes cannot be presented (30_encoding.md R81): the machine has no move (log entry 4). -/
def rejectCommand (e : Reject) (s : State) : Host.Outcome State Fault Refusal :=
  match e with
  | .unknownOpcode | .nonzeroRSV | .nonzeroA16 | .nonzeroA32 | .operandRange => .next (illegalCommand s)
  | .dinLength | .truncated => .fault .dinLength

end Sys2Proof.Machine
end

