-- ==== Sys2Proof/Machine/Step.lean ====
section
/-! DEFINITION. One step: the block takes the host's next event from the port (00_scope.md R7, R8; 60_exceptions.md R231).
With nothing issued it is idle and nothing changes (R230). -/
namespace Sys2Proof.Machine

/-- A command on the port: decoded, then executed or refused (60_exceptions.md R220). -/
def runCommand (cw : CmdWord) (din : List Byte) (s : State) : Host.Outcome State Fault Refusal :=
  match decodeCommand cw din with
  | .ok i => exec i s
  | .error e => rejectCommand e s

/-- One step of the machine. -/
def step (s : State) : Host.Outcome State Fault Refusal :=
  match s.port with
  | [] => .next s
  | .reset :: rest => .next { s with port := rest }.resetEvent
  | .command cw din :: rest => runCommand cw din { s with port := rest }

/-- The state in which the next step runs the opcode-table word `w`: the host presents it, with its `DIN`, as the next command.
The block does not fetch: a program is the host's sequence of commands on the port (log entry 11). -/
def State.withFetchWord (s : State) (nbits w : Nat) : State :=
  { s with port := .command (tableWord nbits w) (tableDin nbits w) :: s.port }

end Sys2Proof.Machine
end

