-- ==== Sys2Proof/Machine/Assembler.lean ====
section
/-! DEFINITION. The written form of commands (30_encoding.md R92 to R94): one command a line, a mnemonic and its operands
separated by commas, numbers decimal or `0x` hexadecimal, lists in square brackets, a comment from `;` to the end of the line.
The block does not see this form; `encode` gives the words of what it denotes. -/
namespace Sys2Proof

/-- The mnemonic of each row (30_encoding.md R87, R94; spec/opcode_table.json). -/
def Op.mnemonic : Op → String
  | .alloc => "ALLOC" | .load => "LOAD" | .ser => "SER" | .free => "FREE"
  | .rdv => "RDV" | .rdp => "RDP" | .rdx => "RDX" | .rdcc => "RDCC" | .rdm => "RDM" | .rdpt => "RDPT"
  | .rdseq => "RDSEQ" | .rdts => "RDTS" | .rdssrc => "RDSSRC" | .rdcsrc => "RDCSRC"
  | .wrv => "WRV" | .setp => "SETP" | .setx => "SETX" | .wrcc => "WRCC" | .setm => "SETM" | .wrpt => "WRPT"
  | .wrseq => "WRSEQ" | .wrts => "WRTS" | .wrssrc => "WRSSRC" | .wrcsrc => "WRCSRC"
  | .clrp => "CLRP" | .clrx => "CLRX" | .clrm => "CLRM"
  | .hlen => "HLEN" | .plen => "PLEN" | .pview => "PVIEW" | .xprof => "XPROF" | .xview => "XVIEW" | .xput => "XPUT"

end Sys2Proof

namespace Sys2Proof.Machine

/-! ## Pseudo-commands (30_encoding.md R93) -/

/-- `PUTP b`. -/
def putp (b : Bool) : Instr := if b then .setp else .clrp

/-- `PUTX b`. -/
def putx (b : Bool) : Instr := if b then .setx else .clrx

/-- `PUTM b`. -/
def putm (b : Bool) : Instr := if b then .setm else .clrm

/-! ## Reading the written form (30_encoding.md R92) -/

/-- The parts of a text between the characters `c`. -/
def splitAtChar (c : Char) (t : List Char) : List (List Char) :=
  t.foldr (fun x acc =>
    match acc with
    | [] => [[x]]
    | l :: ls => if x = c then [] :: l :: ls else (x :: l) :: ls) [[]]

/-- A text without the spaces at its two ends. -/
def trimSpaces (t : List Char) : List Char :=
  ((t.dropWhile (· == ' ')).reverse.dropWhile (· == ' ')).reverse

/-- The words of a text, separated by spaces. -/
def textWords (t : List Char) : List (List Char) := (splitAtChar ' ' t).filter (fun w => !w.isEmpty)

/-- The value of a digit in base `base`, 10 or 16. -/
def digitValue (base : Nat) (c : Char) : Option Nat :=
  let n := c.toNat
  let v := if 48 ≤ n ∧ n ≤ 57 then n - 48 else if 65 ≤ n ∧ n ≤ 70 then n - 55 else if 97 ≤ n ∧ n ≤ 102 then n - 87 else 16
  if v < base then some v else none

/-- The value of a non-empty string of digits. -/
def digitsValue (base : Nat) : List Char → Option Nat
  | [] => none
  | c :: cs => (c :: cs).foldl (fun acc d => do pure (base * (← acc) + (← digitValue base d))) (some 0)

/-- A number, decimal or `0x` hexadecimal. -/
def parseNumber : List Char → Option Nat
  | '0' :: 'x' :: ds => digitsValue 16 ds
  | ds => digitsValue 10 ds

/-- A number that fits the `w` bits of its operand; a larger one has no legal command word (30_encoding.md R84). -/
def parseOperand (w : Nat) (t : List Char) : Option (BitVec w) :=
  (parseNumber t).bind (fun n => if n < 2 ^ w then some (BitVec.ofNat w n) else none)

/-- A byte of a byte string: two hexadecimal digits. -/
def parseByte : List Char → Option Byte
  | [a, b] => (digitsValue 16 [a, b]).map (BitVec.ofNat 8)
  | _ => none

/-- The words between square brackets. -/
def parseBrackets (t : List Char) : Option (List (List Char)) :=
  match t with
  | '[' :: rest =>
    match rest.reverse with
    | ']' :: inner => some (textWords inner.reverse)
    | _ => none
  | _ => none

/-- A byte string. -/
def parseBytes (t : List Char) : Option (List Byte) := (parseBrackets t).bind (fun ws => ws.mapM parseByte)

/-- A CSRC list. -/
def parseEntries (t : List Char) : Option (List Word) := (parseBrackets t).bind (fun ws => ws.mapM (parseOperand 32))

/-- The operand of a pseudo-command: 0 or 1, "anything else is an assembly error" (30_encoding.md R93). -/
def parseFlag (t : List Char) : Option Bool :=
  (parseNumber t).bind (fun n => if n = 0 then some false else if n = 1 then some true else none)

/-- The command a row denotes with the written operands. -/
def parseOp (o : Op) (args : List (List Char)) : Option Instr :=
  match o, args with
  | .alloc, [a] => (parseOperand 32 a).map .alloc
  | .load, [a] => (parseBytes a).map .load
  | .wrv, [a] => (parseOperand 2 a).map .wrv
  | .wrcc, [a] => (parseOperand 32 a).map .wrcc
  | .wrpt, [a] => (parseOperand 7 a).map .wrpt
  | .wrseq, [a] => (parseOperand 16 a).map .wrseq
  | .wrts, [a] => (parseOperand 32 a).map .wrts
  | .wrssrc, [a] => (parseOperand 32 a).map .wrssrc
  | .wrcsrc, [a] => (parseEntries a).map .wrcsrc
  | .xput, [p, d] => (parseOperand 16 p).bind (fun profile => (parseBytes d).map (.xput profile))
  | .ser, [] => some .ser
  | .free, [] => some .free
  | .rdv, [] => some .rdv
  | .rdp, [] => some .rdp
  | .rdx, [] => some .rdx
  | .rdcc, [] => some .rdcc
  | .rdm, [] => some .rdm
  | .rdpt, [] => some .rdpt
  | .rdseq, [] => some .rdseq
  | .rdts, [] => some .rdts
  | .rdssrc, [] => some .rdssrc
  | .rdcsrc, [] => some .rdcsrc
  | .setp, [] => some .setp
  | .setx, [] => some .setx
  | .setm, [] => some .setm
  | .clrp, [] => some .clrp
  | .clrx, [] => some .clrx
  | .clrm, [] => some .clrm
  | .hlen, [] => some .hlen
  | .plen, [] => some .plen
  | .pview, [] => some .pview
  | .xprof, [] => some .xprof
  | .xview, [] => some .xview
  | _, _ => none

/-- The command of a mnemonic and its operands; a pseudo-command expands to one real command (30_encoding.md R93). -/
def parseCommand (name : List Char) (args : List (List Char)) : Option Instr :=
  match name, args with
  | ['P', 'U', 'T', 'P'], [b] => (parseFlag b).map putp
  | ['P', 'U', 'T', 'X'], [b] => (parseFlag b).map putx
  | ['P', 'U', 'T', 'M'], [b] => (parseFlag b).map putm
  | _, _ => (Op.all.find? (fun o => o.mnemonic.toList == name)).bind (fun o => parseOp o args)

/-- One line: no command (blank, or a comment alone), one command, or an assembly error (`none`).
A command that is not well formed (a list too long) is an assembly error: it has no command word. -/
def parseLine (line : List Char) : Option (List Instr) :=
  let text := trimSpaces (line.takeWhile (· != ';'))
  let name := text.takeWhile (· != ' ')
  let rest := trimSpaces (text.dropWhile (· != ' '))
  if name.isEmpty then some []
  else
    match parseCommand name (if rest.isEmpty then [] else (splitAtChar ',' rest).map trimSpaces) with
    | none => none
    | some i => if i.wellFormed then some [i] else none

/-- The commands of a text, one a line. -/
def assemble (text : String) : Option (List Instr) :=
  ((splitAtChar '\n' text.toList).mapM parseLine).map List.flatten

end Sys2Proof.Machine
end

