-- ==== Sys2Proof/Safety.lean ====
section
/-! DEFINITION. What counts as a good state and a good run, and the words the statements use: answers, frames, and the header a
packet declares, written with the bit positions of 20_memory.md R53 and the formulas of R57, not with the model's own functions. -/
namespace Sys2Proof.Machine

/-! ## Good states and good runs -/

/-- The relations of 10_state.md R33, with the bounds on `BUF_CAP` of 00_scope.md R5. -/
structure ControlInv (s : State) : Prop where
  cap_ge : 12 ≤ s.bufCap
  cap_le : s.bufCap ≤ 4294967295
  valid_len : s.valid = true → 12 ≤ s.len.toNat ∧ s.len.toNat ≤ s.bufCap
  invalid_len : s.valid = false → s.len = 0#32
  nofault_cause : s.fault = false → s.fcause = 0x0#4
  fault_cause : s.fault = true → s.fcause = 0x8#4

/-- `BUF` is in canonical form and inside its `BUF_CAP` bytes (10_state.md R21), and every byte of the packet has been written,
so that no command reads what reset left (10_state.md R34). -/
structure BufInv (s : State) : Prop where
  canonical : s.buf.wf = true
  inside : ∀ c ∈ s.buf, c.1 < s.bufCap
  held : ∀ a, a < s.len.toNat → ∃ b, s.buf.get? a = some b

/-- A run has gone wrong when some response was `FAULT_BOUNDS` or `FAULTED` (70_reset_and_hazards.md R256). -/
def wentWrong (rs : List Response) : Bool := rs.any (fun r => r.st == .faultBounds || r.st == .faulted)

/-- The port delivers exactly as many bytes of `DIN` as the command word fixes (30_encoding.md R81, R85). -/
def Event.presentable : Event → Bool
  | .reset => true
  | .command cw din => decide (din.length = dinBytes cw)

/-! ## Answers and frames -/

/-- `ALLOC` and `LOAD` create a packet and need `VALID` = 0; every other command needs `VALID` = 1
(60_exceptions.md R216, R220). -/
def createsPacket : Instr → Bool
  | .alloc _ | .load _ => true
  | .ser | .free | .rdv | .rdp | .rdx | .rdcc | .rdm | .rdpt | .rdseq | .rdts | .rdssrc | .rdcsrc | .wrv _ | .setp | .setx
  | .wrcc _ | .setm | .wrpt _ | .wrseq _ | .wrts _ | .wrssrc _ | .wrcsrc _ | .clrp | .clrx | .clrm | .hlen | .plen | .pview
  | .xprof | .xview | .xput _ _ => false

/-- No fault is latched and the block holds a packet. -/
abbrev Ready (s : State) : Prop := s.fault = false ∧ s.valid = true

/-- `exec i s` ANSWERS A NEXT STATE: the response `(st, val, dout)` is given and NOTHING else changes. -/
def AnswersOnly (i : Instr) (s : State) (st : Status) (val : Word) (dout : List Byte) : Prop :=
  exec i s = .next { s with replies := s.replies ++ [⟨st, val, dout⟩] }

/-- `exec i s` ANSWERS A NEXT STATE by fault entry: latch and cause are set, `FAULT_BOUNDS` is answered, and NOTHING else changes
(60_exceptions.md R221). -/
def TakesFault (i : Instr) (s : State) : Prop :=
  exec i s = .next { s with fault := true, fcause := 0x8#4, replies := s.replies ++ [⟨.faultBounds, 0#32, []⟩] }

/-- Every element but the bytes of `BUF` and the responses is unchanged. -/
def SameControl (s t : State) : Prop :=
  t.bufCap = s.bufCap ∧ t.len = s.len ∧ t.valid = s.valid ∧ t.fault = s.fault ∧ t.fcause = s.fcause ∧
  t.port = s.port ∧ t.resets = s.resets ∧ t.allocs = s.allocs

/-- Every byte outside the `n` bytes at `lo` reads as before. -/
def SameBytesOutside (lo n : Nat) (s t : State) : Prop := ∀ a, a < lo ∨ lo + n ≤ a → t.byte a = s.byte a

/-- `exec i s` ANSWERS A NEXT STATE `t`: the setter's answer `(OK, 0, [])`, every byte outside the `n` bytes at `lo` reads as before,
no other element changes, and `P t` holds. -/
def Writes (i : Instr) (s : State) (lo n : Nat) (P : State → Prop) : Prop :=
  ∃ t, exec i s = .next t ∧ t.replies = s.replies ++ [⟨.ok, 0#32, []⟩] ∧ SameControl s t ∧ SameBytesOutside lo n s t ∧ P t

/-- The exceptions of the common prologue for a command that needs a packet (60_exceptions.md R220): `FAULTED` while the latch is
set, `ERR_STATE` without a packet, and nothing else changes. -/
def NeedsPacket (i : Instr) (s : State) : Prop :=
  (s.fault = true → AnswersOnly i s .faulted 0#32 []) ∧
  (s.fault = false → s.valid = false → AnswersOnly i s .errState 0#32 [])

/-- The same for a command that creates a packet: `ERR_STATE` while there is one. -/
def NeedsNoPacket (i : Instr) (s : State) : Prop :=
  (s.fault = true → AnswersOnly i s .faulted 0#32 []) ∧
  (s.fault = false → s.valid = true → AnswersOnly i s .errState 0#32 [])

/-- The words of a command: its command word is `w`, its `DIN` is `din`, and the decoder reads it from them. -/
def HasWords (i : Instr) (w : CmdWord) (din : List Byte) : Prop :=
  encode i = (w, din) ∧ decodeCommand w din = .ok i

/-- An illegal command word with an empty `DIN`: while no fault is latched it is answered `ERR_ILLEGAL` and NOTHING else changes
(60_exceptions.md R217). -/
def RefusedWord (w : CmdWord) : Prop :=
  (∃ e, decodeWord w = .error e) ∧ dinBytes w = 0 ∧
  ∀ (s : State) (rest : List Event), s.fault = false → s.port = .command w [] :: rest →
    step s = .next { s with port := rest, replies := s.replies ++ [⟨.errIllegal, 0#32, []⟩] }

/-- `dout` is the `n` bytes of `BUF` from offset `a`, in order. -/
def IsBytesAt (s : State) (a n : Nat) (dout : List Byte) : Prop :=
  dout.length = n ∧ ∀ k, k < n → dout[k]? = some (s.byte (a + k))

/-- Writing with `w` and then reading with `r` gives the value `val`. -/
def ReadsBack (w r : Instr) (val : Word) (s : State) : Prop := ∃ t, exec w s = .next t ∧ AnswersOnly r t .ok val []

/-- The commands of a list applied in order (20_memory.md R67). -/
def applyAll : List Instr → State → Host.Outcome State Fault Refusal
  | [], s => .next s
  | i :: is, s =>
    match exec i s with
    | .next t => applyAll is t
    | .fault r => .fault r
    | .refused r => .refused r

/-- What the host presents to have the commands of a list executed. -/
def commandEvents (is : List Instr) : List Event := is.map (fun i => .command (encode i).1 (encode i).2)

/-- Two states the host cannot tell apart by commands: the elements are equal, the bytes below `LEN` are, and so is `allocs`, the
model's own count of `ALLOC`s, without which the next `ALLOC` would draw other free values (log entry 6).
Bytes at `LEN` and above, the port, the responses given so far and the count of resets may differ. -/
def Indistinct (s t : State) : Prop :=
  t.bufCap = s.bufCap ∧ t.len = s.len ∧ t.valid = s.valid ∧ t.fault = s.fault ∧ t.fcause = s.fcause ∧
  t.allocs = s.allocs ∧ ∀ a, a < s.len.toNat → t.byte a = s.byte a

/-- The commands that read (20_memory.md R62: no bytes written), `FREE` apart. -/
def readCommands : List Instr :=
  [.ser, .rdv, .rdp, .rdx, .rdcc, .rdm, .rdpt, .rdseq, .rdts, .rdssrc, .rdcsrc, .hlen, .plen, .pview, .xprof, .xview]

/-! ## The header a byte sequence declares, by bit positions (20_memory.md R53) and formulas (R55 to R57) -/

/-- CSRC count: byte 0 bits 3-0. -/
abbrev csrcCount (rd : Nat → Byte) : Nat := ((rd 0).extractLsb' 0 4).toNat

/-- Extension flag: byte 0 bit 4. -/
abbrev hasExtension (rd : Nat → Byte) : Prop := (rd 0).getLsbD 4 = true

/-- First offset after the CSRC list. -/
abbrev extensionOffset (rd : Nat → Byte) : Nat := 12 + 4 * csrcCount rd

/-- The 16-bit big-endian number at `a`. -/
abbrev number16 (rd : Nat → Byte) (a : Nat) : Nat := 256 * (rd a).toNat + (rd (a + 1)).toNat

/-- Extension word count `N`. -/
abbrev wordCount (rd : Nat → Byte) : Nat := number16 rd (extensionOffset rd + 2)

/-- `h` is the header length the bytes declare: `12 + 4*csrcCount + (extension ? 4 + 4*extensionWordCount : 0)`. -/
abbrev DeclaresHeader (rd : Nat → Byte) (h : Nat) : Prop :=
  (hasExtension rd ∧ h = 12 + 4 * csrcCount rd + (4 + 4 * wordCount rd)) ∨ (¬ hasExtension rd ∧ h = 12 + 4 * csrcCount rd)

/-- The extension flag is set and the word count lies outside the first `len` bytes. -/
abbrev CountOutOfReach (rd : Nat → Byte) (len : Nat) : Prop := hasExtension rd ∧ len < extensionOffset rd + 4

/-- The packet, if there is one, holds the header it declares: it is not malformed (20_memory.md R58), as an accepted `LOAD` leaves
it (44_lifecycle.md R191). -/
def HeaderFits (s : State) : Prop := s.valid = true → ∃ h, DeclaresHeader s.byte h ∧ h ≤ s.len.toNat

/-- The commands after which the declared header may be longer than before: they write the CSRC count, set the extension flag, write
the word count, or leave every byte unspecified (10_state.md R33; 70_reset_and_hazards.md R245 to R247). -/
def mayLengthenHeader : Instr → Bool
  | .alloc _ | .wrcc _ | .wrcsrc _ | .setx | .xput _ _ => true
  | .load _ | .ser | .free | .rdv | .rdp | .rdx | .rdcc | .rdm | .rdpt | .rdseq | .rdts | .rdssrc | .rdcsrc | .wrv _ | .setp
  | .setm | .wrpt _ | .wrseq _ | .wrts _ | .wrssrc _ | .clrp | .clrx | .clrm | .hlen | .plen | .pview | .xprof | .xview => false

/-! ## Tables of the spec -/

/-- `OPC` values of no command (30_encoding.md R89). -/
def UnassignedOpcode (b : Nat) : Prop :=
  b = 0x00 ∨ b = 0x30 ∨ b = 0x33 ∨ (0x35 ≤ b ∧ b ≤ 0x3F) ∨ (0x05 ≤ b ∧ b ≤ 0x0F) ∨ (0x1A ≤ b ∧ b ≤ 0x1F) ∨
  (0x2A ≤ b ∧ b ≤ 0x2F) ∨ (0x43 ≤ b ∧ b ≤ 0x4F) ∨ (0x53 ≤ b ∧ b ≤ 0xFF)

/-- The illegal command words, as 30_encoding.md R89 lists them.
The commands with an `A32` operand are ALLOC, LOAD, WRV, WRCC, WRPT, WRSEQ, WRTS, WRSSRC, WRCSRC and XPUT (R84). -/
def IllegalWord (w : CmdWord) : Prop :=
  UnassignedOpcode w.opc.toNat ∨ w.rsv ≠ 0#8 ∨ (w.opc ≠ 0x52#8 ∧ w.a16 ≠ 0#16) ∨
  (w.opc ∉ [0x01#8, 0x02#8, 0x20#8, 0x23#8, 0x25#8, 0x26#8, 0x27#8, 0x28#8, 0x29#8, 0x52#8] ∧ w.a32 ≠ 0#32) ∨
  (w.opc = 0x20#8 ∧ 3 < w.a32.toNat) ∨ (w.opc = 0x25#8 ∧ 127 < w.a32.toNat) ∨
  (w.opc = 0x26#8 ∧ 65535 < w.a32.toNat) ∨ (w.opc = 0x29#8 ∧ 15 < w.a32.toNat)

/-- When a command raises `FAULT_BOUNDS`: the table of 60_exceptions.md R213. -/
def BoundsFault (i : Instr) (s : State) : Prop :=
  match i with
  | .rdcsrc => s.len.toNat < 12 + 4 * csrcCount s.byte
  | .wrcsrc entries => s.len.toNat < 12 + 4 * entries.length
  | .hlen => CountOutOfReach s.byte s.len.toNat
  | .plen | .pview => CountOutOfReach s.byte s.len.toNat ∨ ∃ h, DeclaresHeader s.byte h ∧ s.len.toNat < h
  | .xprof => hasExtension s.byte ∧ s.len.toNat < extensionOffset s.byte + 2
  | .xview =>
    CountOutOfReach s.byte s.len.toNat ∨
    (hasExtension s.byte ∧ s.len.toNat < extensionOffset s.byte + 4 + 4 * wordCount s.byte)
  | _ => False

/-- The offsets a command may write: the table of 20_memory.md R62. -/
def WrittenByte (i : Instr) (s : State) (a : Nat) : Prop :=
  match i with
  | .wrv _ | .setp | .clrp | .setx | .clrx | .wrcc _ => a = 0
  | .setm | .clrm | .wrpt _ => a = 1
  | .wrseq _ => 2 ≤ a ∧ a < 4
  | .wrts _ => 4 ≤ a ∧ a < 8
  | .wrssrc _ => 8 ≤ a ∧ a < 12
  | .wrcsrc entries => a = 0 ∨ (12 ≤ a ∧ a < 12 + 4 * entries.length)
  | .xput _ data => extensionOffset s.byte ≤ a ∧ a < extensionOffset s.byte + 4 + 4 * ((data.length + 3) / 4)
  | .alloc size => a < size.toNat
  | .load bytes => a < bytes.length
  | _ => False

/-- Bit `j` of byte `a` belongs to the field a fixed-header write command writes (20_memory.md R53); any bit for the others. -/
def OwnBit (i : Instr) (a j : Nat) : Prop :=
  match i with
  | .wrv _ => a = 0 ∧ (j = 6 ∨ j = 7)
  | .setp | .clrp => a = 0 ∧ j = 5
  | .setx | .clrx => a = 0 ∧ j = 4
  | .wrcc _ => a = 0 ∧ j < 4
  | .setm | .clrm => a = 1 ∧ j = 7
  | .wrpt _ => a = 1 ∧ j < 7
  | .wrseq _ => a = 2 ∨ a = 3
  | .wrts _ => 4 ≤ a ∧ a < 8
  | .wrssrc _ => 8 ≤ a ∧ a < 12
  | _ => True

end Sys2Proof.Machine
end

