-- ==== Sys2Proof/Certificates/Slice0/Obligations.lean ====
section
/-! DEFINITION. The statements about the model, for the provers. The words they are written in (`AnswersOnly`, `TakesFault`,
`Writes`, `NeedsPacket`, `HasWords`, `DeclaresHeader`, …) are in Sys2Proof/Safety.lean. -/
open Sys2Proof Sys2Proof.Machine

/-! ## Words, decoding, the port -/

/-- Command words written out in spec/95_test_vectors.md decode to the commands they stand for there. -/
def Obligations.VectorWordsDecode : Prop :=
  decodeCommand 0x2000000000000003#64 [] = .ok (.wrv 3#2) ∧
  decodeCommand 0x2300000012345678#64 [] = .ok (.wrcc 0x12345678#32) ∧
  decodeCommand 0x2900000000000002#64 [0xDE#8, 0xAD#8, 0xBE#8, 0xEF#8, 0x00#8, 0x00#8, 0x00#8, 0x01#8] =
    .ok (.wrcsrc [0xDEADBEEF#32, 0x00000001#32]) ∧
  decodeCommand 0x4100000000000000#64 [] = .ok .plen ∧
  decodeCommand 0x5200ABCD00000001#64 [0x55#8] = .ok (.xput 0xABCD#16 [0x55#8]) ∧
  decodeCommand 0x0100000000000034#64 [] = .ok (.alloc 52#32)

/-- Decoding an encoded well-formed command gives it back, as the pair `(CW, DIN)` and as bytes followed by anything. -/
def Obligations.DecodeOfEncodeIsTheCommand : Prop :=
  ∀ i : Instr, i.wellFormed = true →
    decodeCommand (encode i).1 (encode i).2 = .ok i ∧
    ∀ rest : List Byte, decodeBytes (encodeBytes i ++ rest) = .ok (i, rest)

/-- 30_encoding.md R88: a word selects the row of the opcode table with `(w & mask) = match`, at most one row matches, and the
masks and matches are as R88 describes them. The operand widths `Op.a32Bits` are those of R84. -/
def Obligations.DecodingSelectsTheOpcodeTableRow : Prop :=
  (∀ (w : CmdWord) (o : Op), decodeWord w = .ok o ↔ w &&& o.mask = o.pattern) ∧
  (∀ (w : CmdWord) (o p : Op), w &&& o.mask = o.pattern → w &&& p.mask = p.pattern → o = p) ∧
  (∀ o : Op,
    o.mask = CmdWord.ofFields 0xFF#8 0xFF#8 (if o.usesA16 then 0x0000#16 else 0xFFFF#16) (0xFFFFFFFF#32 <<< o.a32Bits) ∧
    o.pattern = CmdWord.ofFields o.opc 0x00#8 0x0000#16 0x00000000#32)

/-- 30_encoding.md R89, 60_exceptions.md R217: which words are illegal; an illegal word has no `DIN`, is answered `ERR_ILLEGAL`
and changes no state; the all-zero word is illegal. -/
def Obligations.IllegalWordsAreAnsweredErrIllegal : Prop :=
  (∀ w : CmdWord, IllegalWord w ↔ ∃ e, decodeWord w = .error e) ∧
  (∀ w : CmdWord, IllegalWord w → RefusedWord w) ∧
  IllegalWord 0x0000000000000000#64

/-- When the words on the port decode to `i`, the step is `exec i` after the words are taken from the port. -/
def Obligations.StepExecutesTheDecodedCommand : Prop :=
  ∀ (s : State) (w : CmdWord) (din : List Byte) (rest : List Event) (i : Instr),
    s.port = .command w din :: rest → decodeCommand w din = .ok i → step s = exec i { s with port := rest }

/-- With nothing issued a step changes nothing; a `DIN` of another length than the word fixes stops the machine.
The second clause is the model's own choice (log entry 4). -/
def Obligations.IdleStepAndUnpresentableDin : Prop :=
  (∀ s : State, s.port = [] → step s = .next s) ∧
  (∀ (s : State) (w : CmdWord) (din : List Byte) (rest : List Event), s.port = .command w din :: rest →
    din.length ≠ dinBytes w → step s = .fault .dinLength)

/-- The reset event gives every element its reset value and no response, and is the only way to clear the fault latch
(70_reset_and_hazards.md R240, 10_state.md R34); the state before any event, `State.reset`, has the same values.
The model's choices: that an unspecified byte of `BUF` is the free value `Config.resetByte` at a counter that reset advances
(log entry 5), and that reset keeps the port, the responses, `bufCap` and `allocs` (log entry 8). -/
def Obligations.ResetEventGivesTheResetValues : Prop :=
  (∀ (s : State) (rest : List Event), s.port = .reset :: rest →
    ∃ t, step s = .next t ∧ t.valid = false ∧ t.fault = false ∧ t.fcause = 0#4 ∧ t.len = 0#32 ∧
      (∀ a, t.byte a = Config.resetByte t.resets a) ∧ t.resets = s.resets + 1 ∧
      t.replies = s.replies ∧ t.port = rest ∧ t.bufCap = s.bufCap ∧ t.allocs = s.allocs) ∧
  (∀ s t : State, step s = .next t → s.fault = true → t.fault = false → s.port.head? = some .reset) ∧
  State.reset.valid = false ∧ State.reset.fault = false ∧ State.reset.fcause = 0#4 ∧ State.reset.len = 0#32 ∧
  (∀ a, State.reset.byte a = Config.resetByte State.reset.resets a)

/-- As long as the host presents each `DIN` with the length its word fixes, a step never stops: it takes one event, and a
command gives exactly one response (93_implementation_defined.md section 2; 30_encoding.md R83). -/
def Obligations.PresentablePortNeverStops : Prop :=
  ∀ s : State, (∀ e ∈ s.port, e.presentable = true) →
    ∃ t, step s = .next t ∧ t.port = s.port.tail ∧
      (∀ w din rest, s.port = .command w din :: rest → ∃ r, t.replies = s.replies ++ [r])

/-- 20_memory.md R67: the state after commands c1; c2; ...; ck is the result of applying their rules in that order.
The port as a list in the state is the model's choice (log entry 2). -/
def Obligations.RunAppliesTheCommandsInOrder : Prop :=
  ∀ (is : List Instr) (s : State) (rest : List Event), (∀ i ∈ is, i.wellFormed = true) →
    Host.Core.run Sys2Proof.core is.length { s with port := commandEvents is ++ rest } = applyAll is { s with port := rest }

/-! ## Responses, failures, the latch -/

/-- 20_memory.md R60 and, of the two classes of failure, what 60_exceptions.md R211 says of the state: every command answers once; one that does not answer `OK` has changed nothing in `BUF`,
`LEN` or `VALID`; a recoverable failure changes no state at all; a fatal one sets the latch. -/
def Obligations.FailedCommandsChangeNothing : Prop :=
  ∀ (i : Instr) (s : State), ∃ t r, exec i s = .next t ∧ t.replies = s.replies ++ [r] ∧ t.port = s.port ∧
    t.bufCap = s.bufCap ∧ t.resets = s.resets ∧
    (r.st ≠ .ok → r.val = 0#32 ∧ r.dout = [] ∧ t.buf = s.buf ∧ t.len = s.len ∧ t.valid = s.valid ∧ t.allocs = s.allocs) ∧
    (r.st ≠ .ok → r.st ≠ .faultBounds → t = { s with replies := s.replies ++ [r] }) ∧
    (r.st = .ok → t.fault = s.fault ∧ t.fcause = s.fcause) ∧
    (r.st = .faultBounds → t.fault = true)

/-- 60_exceptions.md R218: every command that arrives while `FAULT` = 1, legal or not, is answered `FAULTED`, nothing changes and its
`DIN` is discarded. -/
def Obligations.LatchedFaultAnswersFaulted : Prop :=
  ∀ s : State, s.fault = true →
    (∀ i : Instr, AnswersOnly i s .faulted 0#32 []) ∧
    (∀ (w : CmdWord) (din : List Byte) (rest : List Event), s.port = .command w din :: rest → din.length = dinBytes w →
      step s = .next { s with port := rest, replies := s.replies ++ [⟨.faulted, 0#32, []⟩] })

/-- 60_exceptions.md R216: `ALLOC` or `LOAD` while `VALID` = 1, any other command while `VALID` = 0. -/
def Obligations.CommandsThatDoNotSuitValidAnswerErrState : Prop :=
  ∀ (i : Instr) (s : State), i.wellFormed = true → s.fault = false → s.valid = createsPacket i →
    AnswersOnly i s .errState 0#32 []

/-- 60_exceptions.md R221, 10_state.md R24: the latch is set by fault entry alone, which changes nothing but `FAULT` and `FCAUSE`; no
command clears it, only the reset event does; while it is set every command is answered `FAULTED`. -/
def Obligations.FaultEntrySetsOnlyTheLatch : Prop :=
  (∀ (i : Instr) (s t : State), exec i s = .next t → s.fault = false → t.fault = true → TakesFault i s) ∧
  (∀ (i : Instr) (s t : State) (r : Response), exec i s = .next t → t.replies = s.replies ++ [r] → r.st = .faultBounds →
    s.fault = false ∧ TakesFault i s) ∧
  (∀ (i : Instr) (s t : State) (r : Response), exec i s = .next t → t.replies = s.replies ++ [r] → r.st ≠ .ok →
    r.st ≠ .faultBounds → t = { s with replies := s.replies ++ [⟨r.st, 0#32, []⟩] }) ∧
  (∀ s t : State, step s = .next t → s.fault = true → t.fault = false → s.port.head? = some .reset) ∧
  (∀ (i : Instr) (s : State), s.fault = true → AnswersOnly i s .faulted 0#32 [])

/-- The table of 60_exceptions.md R213 (marked there as derived): a command faults on bounds exactly when the table says so, and
otherwise leaves the latch clear. -/
def Obligations.BoundsFaultExactlyWhenTheTableSays : Prop :=
  ∀ (i : Instr) (s : State), i.wellFormed = true → Ready s →
    (BoundsFault i s → TakesFault i s) ∧
    (¬ BoundsFault i s → ∃ t, exec i s = .next t ∧ t.fault = false ∧ t.fcause = s.fcause)

/-- 20_memory.md R59: the guarded accesses fail exactly when `addr + n > LEN`; a read gives the bytes, big-endian; a write stores them
and leaves every other byte and element as it was. -/
def Obligations.GuardedAccessesStayInsideLen : Prop :=
  ∀ (s : State) (a : Nat),
    (∀ n, s.len.toNat < a + n → s.memReadBytes a n = none) ∧
    (∀ n, a + n ≤ s.len.toNat → ∃ bs, s.memReadBytes a n = some bs ∧ IsBytesAt s a n bs) ∧
    (s.len.toNat < a + 1 → s.memRead1 a = none) ∧ (a + 1 ≤ s.len.toNat → s.memRead1 a = some (s.byte a)) ∧
    (s.len.toNat < a + 2 → s.memRead2 a = none) ∧
    (a + 2 ≤ s.len.toNat → ∃ v, s.memRead2 a = some v ∧ v.toNat = 256 * (s.byte a).toNat + (s.byte (a + 1)).toNat) ∧
    (s.len.toNat < a + 4 → s.memRead4 a = none) ∧
    (a + 4 ≤ s.len.toNat → ∃ v, s.memRead4 a = some v ∧ v.toNat =
      16777216 * (s.byte a).toNat + 65536 * (s.byte (a + 1)).toNat + 256 * (s.byte (a + 2)).toNat + (s.byte (a + 3)).toNat) ∧
    (∀ bs : List Byte, s.len.toNat < a + bs.length → s.memWriteBytes a bs = none) ∧
    (∀ bs : List Byte, a + bs.length ≤ s.len.toNat → ∃ t, s.memWriteBytes a bs = some t ∧ IsBytesAt t a bs.length bs ∧
      SameBytesOutside a bs.length s t ∧ SameControl s t ∧ t.replies = s.replies) ∧
    (∀ v : Byte, s.memWrite1 a v = s.memWriteBytes a [v]) ∧
    (∀ v : Half, s.memWrite2 a v = s.memWriteBytes a [v.extractLsb' 8 8, v.extractLsb' 0 8]) ∧
    (∀ v : Word, s.memWrite4 a v =
      s.memWriteBytes a [v.extractLsb' 24 8, v.extractLsb' 16 8, v.extractLsb' 8 8, v.extractLsb' 0 8])

/-! ## Fixed-header fields (40_fixed_fields.md) -/

/-- The readers of bytes 0 and 1: R111, R113, R116, R119, R121, R124. -/
def Obligations.BitFieldReadsGiveTheField : Prop :=
  ∀ s : State,
    (∀ i ∈ [Instr.rdv, .rdp, .rdx, .rdcc, .rdm, .rdpt], NeedsPacket i s) ∧
    (Ready s →
      AnswersOnly .rdv s .ok (((s.byte 0).extractLsb' 6 2).setWidth 32) [] ∧
      AnswersOnly .rdp s .ok (((s.byte 0).extractLsb' 5 1).setWidth 32) [] ∧
      AnswersOnly .rdx s .ok (((s.byte 0).extractLsb' 4 1).setWidth 32) [] ∧
      AnswersOnly .rdcc s .ok (((s.byte 0).extractLsb' 0 4).setWidth 32) [] ∧
      AnswersOnly .rdm s .ok (((s.byte 1).extractLsb' 7 1).setWidth 32) [] ∧
      AnswersOnly .rdpt s .ok (((s.byte 1).extractLsb' 0 7).setWidth 32) []) ∧
    HasWords .rdv 0x1000000000000000#64 [] ∧ HasWords .rdp 0x1100000000000000#64 [] ∧
    HasWords .rdx 0x1200000000000000#64 [] ∧ HasWords .rdcc 0x1300000000000000#64 [] ∧
    HasWords .rdm 0x1400000000000000#64 [] ∧ HasWords .rdpt 0x1500000000000000#64 []

/-- The readers of bytes 2 to 11, big-endian: R126, R128, R130. -/
def Obligations.WideFieldReadsAreBigEndian : Prop :=
  ∀ s : State,
    (∀ i ∈ [Instr.rdseq, .rdts, .rdssrc], NeedsPacket i s) ∧
    (Ready s →
      (∃ v, AnswersOnly .rdseq s .ok v [] ∧ v.toNat = 256 * (s.byte 2).toNat + (s.byte 3).toNat) ∧
      (∃ v, AnswersOnly .rdts s .ok v [] ∧ v.toNat =
        16777216 * (s.byte 4).toNat + 65536 * (s.byte 5).toNat + 256 * (s.byte 6).toNat + (s.byte 7).toNat) ∧
      (∃ v, AnswersOnly .rdssrc s .ok v [] ∧ v.toNat =
        16777216 * (s.byte 8).toNat + 65536 * (s.byte 9).toNat + 256 * (s.byte 10).toNat + (s.byte 11).toNat)) ∧
    HasWords .rdseq 0x1600000000000000#64 [] ∧ HasWords .rdts 0x1700000000000000#64 [] ∧
    HasWords .rdssrc 0x1800000000000000#64 []

/-- The one-bit flags: R114, R115, R117, R118, R122, R123. -/
def Obligations.FlagWritesChangeOneBit : Prop :=
  ∀ s : State,
    (∀ i ∈ [Instr.setp, .clrp, .setx, .clrx, .setm, .clrm], NeedsPacket i s) ∧
    (Ready s →
      Writes .setp s 0 1 (fun t => t.byte 0 = (s.byte 0).extractLsb' 6 2 ++ 1#1 ++ (s.byte 0).extractLsb' 0 5) ∧
      Writes .clrp s 0 1 (fun t => t.byte 0 = (s.byte 0).extractLsb' 6 2 ++ 0#1 ++ (s.byte 0).extractLsb' 0 5) ∧
      Writes .setx s 0 1 (fun t => t.byte 0 = (s.byte 0).extractLsb' 5 3 ++ 1#1 ++ (s.byte 0).extractLsb' 0 4) ∧
      Writes .clrx s 0 1 (fun t => t.byte 0 = (s.byte 0).extractLsb' 5 3 ++ 0#1 ++ (s.byte 0).extractLsb' 0 4) ∧
      Writes .setm s 1 1 (fun t => t.byte 1 = 1#1 ++ (s.byte 1).extractLsb' 0 7) ∧
      Writes .clrm s 1 1 (fun t => t.byte 1 = 0#1 ++ (s.byte 1).extractLsb' 0 7)) ∧
    HasWords .setp 0x2100000000000000#64 [] ∧ HasWords .clrp 0x3100000000000000#64 [] ∧
    HasWords .setx 0x2200000000000000#64 [] ∧ HasWords .clrx 0x3200000000000000#64 [] ∧
    HasWords .setm 0x2400000000000000#64 [] ∧ HasWords .clrm 0x3400000000000000#64 []

/-- Version, CSRC count and payload type: R112, R120, R125. An operand out of range is an illegal word, except for `WRCC`, whose
operand is any 32-bit value. -/
def Obligations.BitFieldWritesReplaceTheField : Prop :=
  (∀ (s : State) (v : BitVec 2), NeedsPacket (.wrv v) s ∧
    (Ready s → Writes (.wrv v) s 0 1 (fun t => t.byte 0 = v ++ (s.byte 0).extractLsb' 0 6)) ∧
    HasWords (.wrv v) (0x2000000000000000#64 ||| v.setWidth 64) []) ∧
  (∀ (s : State) (v : Word), NeedsPacket (.wrcc v) s ∧
    (Ready s → Writes (.wrcc v) s 0 1 (fun t => t.byte 0 = (s.byte 0).extractLsb' 4 4 ++ v.extractLsb' 0 4)) ∧
    HasWords (.wrcc v) (0x2300000000000000#64 ||| v.setWidth 64) []) ∧
  (∀ (s : State) (v : BitVec 7), NeedsPacket (.wrpt v) s ∧
    (Ready s → Writes (.wrpt v) s 1 1 (fun t => t.byte 1 = (s.byte 1).extractLsb' 7 1 ++ v)) ∧
    HasWords (.wrpt v) (0x2500000000000000#64 ||| v.setWidth 64) []) ∧
  (∀ x : Word, 3 < x.toNat → RefusedWord (CmdWord.ofFields 0x20#8 0x00#8 0x0000#16 x)) ∧
  (∀ x : Word, 127 < x.toNat → RefusedWord (CmdWord.ofFields 0x25#8 0x00#8 0x0000#16 x))

/-- Sequence number, timestamp, SSRC: R127, R129, R131. -/
def Obligations.WideFieldWritesAreBigEndian : Prop :=
  (∀ (s : State) (v : Half), NeedsPacket (.wrseq v) s ∧
    (Ready s → Writes (.wrseq v) s 2 2 (fun t => 256 * (t.byte 2).toNat + (t.byte 3).toNat = v.toNat)) ∧
    HasWords (.wrseq v) (0x2600000000000000#64 ||| v.setWidth 64) []) ∧
  (∀ (s : State) (v : Word), NeedsPacket (.wrts v) s ∧
    (Ready s → Writes (.wrts v) s 4 4 (fun t =>
      16777216 * (t.byte 4).toNat + 65536 * (t.byte 5).toNat + 256 * (t.byte 6).toNat + (t.byte 7).toNat = v.toNat)) ∧
    HasWords (.wrts v) (0x2700000000000000#64 ||| v.setWidth 64) []) ∧
  (∀ (s : State) (v : Word), NeedsPacket (.wrssrc v) s ∧
    (Ready s → Writes (.wrssrc v) s 8 4 (fun t =>
      16777216 * (t.byte 8).toNat + 65536 * (t.byte 9).toNat + 256 * (t.byte 10).toNat + (t.byte 11).toNat = v.toNat)) ∧
    HasWords (.wrssrc v) (0x2800000000000000#64 ||| v.setWidth 64) []) ∧
  (∀ x : Word, 65535 < x.toNat → RefusedWord (CmdWord.ofFields 0x26#8 0x00#8 0x0000#16 x))

/-- R132 (marked there as derived): what a field's write command wrote, its read command returns. -/
def Obligations.FieldRoundTrips : Prop :=
  ∀ s : State, Ready s →
    (∀ v, ReadsBack (.wrv v) .rdv (v.setWidth 32) s) ∧
    (∀ v, ReadsBack (.wrpt v) .rdpt (v.setWidth 32) s) ∧
    (∀ v : Word, ReadsBack (.wrcc v) .rdcc (v &&& 0xF#32) s) ∧
    (∀ v, ReadsBack (.wrseq v) .rdseq (v.setWidth 32) s) ∧
    (∀ v, ReadsBack (.wrts v) .rdts v s) ∧
    (∀ v, ReadsBack (.wrssrc v) .rdssrc v s) ∧
    ReadsBack .setp .rdp 1#32 s ∧ ReadsBack .clrp .rdp 0#32 s ∧
    ReadsBack .setx .rdx 1#32 s ∧ ReadsBack .clrx .rdx 0#32 s ∧
    ReadsBack .setm .rdm 1#32 s ∧ ReadsBack .clrm .rdm 0#32 s

/-- R133: a write command of the fixed header changes only the bits of its own field; every other bit of `BUF` keeps its value. -/
def Obligations.FieldWritesDisturbNoOtherBit : Prop :=
  ∀ (i : Instr) (s t : State), exec i s = .next t → ∀ a j, ¬ OwnBit i a j → (t.byte a).getLsbD j = (s.byte a).getLsbD j

/-! ## CSRC list (41_csrc.md) -/

/-- R150: `RDCSRC` gives the entry count and the bytes of the region, entry `i` being the big-endian word at `12 + 4i`. -/
def Obligations.RdcsrcGivesTheList : Prop :=
  ∀ s : State, NeedsPacket .rdcsrc s ∧ HasWords .rdcsrc 0x1900000000000000#64 [] ∧
    (Ready s → s.len.toNat < 12 + 4 * csrcCount s.byte → TakesFault .rdcsrc s) ∧
    (Ready s → 12 + 4 * csrcCount s.byte ≤ s.len.toNat → ∃ v dout, AnswersOnly .rdcsrc s .ok v dout ∧
      v.toNat = csrcCount s.byte ∧ IsBytesAt s 12 (4 * csrcCount s.byte) dout ∧
      (bytesToEntries dout).length = csrcCount s.byte ∧
      ∀ k, k < csrcCount s.byte → (bytesToEntries dout)[k]? = some (rd32 s.byte (12 + 4 * k)))

/-- R151: `WRCSRC` writes the count and the entries together, after its guard; a list longer than 15 cannot be expressed. -/
def Obligations.WrcsrcWritesCountAndList : Prop :=
  (∀ (s : State) (entries : List Word), entries.length ≤ 15 →
    NeedsPacket (.wrcsrc entries) s ∧
    HasWords (.wrcsrc entries) (0x2900000000000000#64 ||| BitVec.ofNat 64 entries.length) (entriesToBytes entries) ∧
    (Ready s → s.len.toNat < 12 + 4 * entries.length → TakesFault (.wrcsrc entries) s) ∧
    (Ready s → 12 + 4 * entries.length ≤ s.len.toNat →
      ∃ t, exec (.wrcsrc entries) s = .next t ∧ t.replies = s.replies ++ [⟨.ok, 0#32, []⟩] ∧ SameControl s t ∧
        t.byte 0 = (s.byte 0).extractLsb' 4 4 ++ BitVec.ofNat 4 entries.length ∧
        (∀ k, k < entries.length → entries[k]? = some (rd32 t.byte (12 + 4 * k))) ∧
        (∀ a, a ≠ 0 → a < 12 ∨ 12 + 4 * entries.length ≤ a → t.byte a = s.byte a))) ∧
  (∀ x : Word, 15 < x.toNat → RefusedWord (CmdWord.ofFields 0x29#8 0x00#8 0x0000#16 x))

/-- What `WRCSRC` wrote, `RDCSRC` returns (from R150 and R151; the model's inference, no rule states it for the list). -/
def Obligations.CsrcListReadsBack : Prop :=
  ∀ (s : State) (entries : List Word), Ready s → entries.length ≤ 15 → 12 + 4 * entries.length ≤ s.len.toNat →
    ∃ t dout, exec (.wrcsrc entries) s = .next t ∧
      AnswersOnly .rdcsrc t .ok (BitVec.ofNat 32 entries.length) dout ∧ bytesToEntries dout = entries

/-! ## Derived lengths (42_derived.md) -/

/-- R160: `HLEN` answers the declared header length, whatever `LEN` is, and faults only when the word count is out of reach. -/
def Obligations.HlenGivesTheDeclaredLength : Prop :=
  ∀ s : State, NeedsPacket .hlen s ∧ HasWords .hlen 0x4000000000000000#64 [] ∧
    (Ready s → CountOutOfReach s.byte s.len.toNat → TakesFault .hlen s) ∧
    (Ready s → ¬ CountOutOfReach s.byte s.len.toNat →
      ∃ v, AnswersOnly .hlen s .ok v [] ∧ DeclaresHeader s.byte v.toNat)

/-- R161: `PLEN` answers `LEN` less the declared header length; a malformed buffer faults. -/
def Obligations.PlenGivesTheRest : Prop :=
  ∀ s : State, NeedsPacket .plen s ∧ HasWords .plen 0x4100000000000000#64 [] ∧
    (Ready s → CountOutOfReach s.byte s.len.toNat → TakesFault .plen s) ∧
    (Ready s → ∀ h, DeclaresHeader s.byte h → s.len.toNat < h → TakesFault .plen s) ∧
    (Ready s → ∀ h, DeclaresHeader s.byte h → h ≤ s.len.toNat →
      ∃ v, AnswersOnly .plen s .ok v [] ∧ v.toNat = s.len.toNat - h)

/-- R162: `PVIEW` answers the payload length and the payload bytes; it faults as `PLEN` does. -/
def Obligations.PviewGivesThePayload : Prop :=
  ∀ s : State, NeedsPacket .pview s ∧ HasWords .pview 0x4200000000000000#64 [] ∧
    (Ready s → CountOutOfReach s.byte s.len.toNat → TakesFault .pview s) ∧
    (Ready s → ∀ h, DeclaresHeader s.byte h → s.len.toNat < h → TakesFault .pview s) ∧
    (Ready s → ∀ h, DeclaresHeader s.byte h → h ≤ s.len.toNat →
      ∃ v dout, AnswersOnly .pview s .ok v dout ∧ v.toNat = s.len.toNat - h ∧ IsBytesAt s h (s.len.toNat - h) dout)

/-- R163 (marked there as derived): whenever `PLEN` answers `OK` with `p`, `HLEN` answers `OK` with an `h` such that `h + p = LEN`, and
`PVIEW` answers `OK` with `p` and `p` bytes. -/
def Obligations.DerivedLengthsAgree : Prop :=
  ∀ (s : State) (p : Word), Ready s → AnswersOnly .plen s .ok p [] →
    ∃ h dout, AnswersOnly .hlen s .ok h [] ∧ h.toNat + p.toNat = s.len.toNat ∧
      AnswersOnly .pview s .ok p dout ∧ dout.length = p.toNat

/-! ## Extension (43_extension.md) -/

/-- R171: `XPROF`. -/
def Obligations.XprofGivesTheProfile : Prop :=
  ∀ s : State, NeedsPacket .xprof s ∧ HasWords .xprof 0x5000000000000000#64 [] ∧
    (Ready s → ¬ hasExtension s.byte → AnswersOnly .xprof s .ok 0#32 []) ∧
    (Ready s → hasExtension s.byte → s.len.toNat < extensionOffset s.byte + 2 → TakesFault .xprof s) ∧
    (Ready s → hasExtension s.byte → extensionOffset s.byte + 2 ≤ s.len.toNat →
      ∃ v, AnswersOnly .xprof s .ok v [] ∧ v.toNat = number16 s.byte (extensionOffset s.byte))

/-- R172: `XVIEW` answers the region's `4N` bytes, or nothing when the extension flag is 0. -/
def Obligations.XviewGivesTheRegion : Prop :=
  ∀ s : State, NeedsPacket .xview s ∧ HasWords .xview 0x5100000000000000#64 [] ∧
    (Ready s → ¬ hasExtension s.byte → AnswersOnly .xview s .ok 0#32 []) ∧
    (Ready s → CountOutOfReach s.byte s.len.toNat → TakesFault .xview s) ∧
    (Ready s → hasExtension s.byte → s.len.toNat < extensionOffset s.byte + 4 + 4 * wordCount s.byte → TakesFault .xview s) ∧
    (Ready s → hasExtension s.byte → extensionOffset s.byte + 4 + 4 * wordCount s.byte ≤ s.len.toNat →
      ∃ v dout, AnswersOnly .xview s .ok v dout ∧ v.toNat = 4 * wordCount s.byte ∧
        IsBytesAt s (extensionOffset s.byte + 4) (4 * wordCount s.byte) dout)

/-- R173, R177: `XPUT` writes profile, word count, data and zero padding where the CSRC list ends, or, when the
block does not fit or its word count exceeds 65535, answers `ERR_CAPACITY` and changes nothing. -/
def Obligations.XputLaysOutThePaddedBlock : Prop :=
  ∀ (s : State) (profile : Half) (data : List Byte), data.length < 4294967296 →
    NeedsPacket (.xput profile data) s ∧
    HasWords (.xput profile data) (CmdWord.ofFields 0x52#8 0x00#8 profile (BitVec.ofNat 32 data.length)) data ∧
    (Ready s → 65535 < (data.length + 3) / 4 → AnswersOnly (.xput profile data) s .errCapacity 0#32 []) ∧
    (Ready s → s.len.toNat < extensionOffset s.byte + 4 + 4 * ((data.length + 3) / 4) →
      AnswersOnly (.xput profile data) s .errCapacity 0#32 []) ∧
    (Ready s → (data.length + 3) / 4 ≤ 65535 → extensionOffset s.byte + 4 + 4 * ((data.length + 3) / 4) ≤ s.len.toNat →
      Writes (.xput profile data) s (extensionOffset s.byte) (4 + 4 * ((data.length + 3) / 4)) (fun t =>
        number16 t.byte (extensionOffset s.byte) = profile.toNat ∧
        number16 t.byte (extensionOffset s.byte + 2) = (data.length + 3) / 4 ∧
        IsBytesAt t (extensionOffset s.byte + 4) data.length data ∧
        ∀ k, data.length ≤ k → k < 4 * ((data.length + 3) / 4) → t.byte (extensionOffset s.byte + 4 + k) = 0x00#8))

/-- R174: `XPUT` writes the whole block (profile, word count, data, zero padding) and answers `OK` whether the extension flag is 1 or
0, if the block fits, and leaves the flag as it was in any case; a block written while the flag is 0 is not
present: `HLEN` does not count it, `XPROF` returns 0 and `XVIEW` returns empty. -/
def Obligations.XputLeavesTheFlag : Prop :=
  ∀ (s : State) (profile : Half) (data : List Byte), Ready s →
    ∃ t, exec (.xput profile data) s = .next t ∧ (t.byte 0).getLsbD 4 = (s.byte 0).getLsbD 4 ∧
      ((data.length + 3) / 4 ≤ 65535 → extensionOffset s.byte + 4 + 4 * ((data.length + 3) / 4) ≤ s.len.toNat →
        t.replies = s.replies ++ [⟨.ok, 0#32, []⟩] ∧
        number16 t.byte (extensionOffset s.byte) = profile.toNat ∧
        number16 t.byte (extensionOffset s.byte + 2) = (data.length + 3) / 4 ∧
        IsBytesAt t (extensionOffset s.byte + 4) data.length data ∧
        ∀ k, data.length ≤ k → k < 4 * ((data.length + 3) / 4) → t.byte (extensionOffset s.byte + 4 + k) = 0x00#8) ∧
      (¬ hasExtension s.byte →
        (∃ v, AnswersOnly .hlen t .ok v [] ∧ v.toNat = 12 + 4 * csrcCount s.byte) ∧
        AnswersOnly .xprof t .ok 0#32 [] ∧ AnswersOnly .xview t .ok 0#32 [])

/-- R176 (marked there as derived): what a host may rely on after a successful `XPUT` with the extension flag 1. -/
def Obligations.ExtensionBlockReadsBack : Prop :=
  ∀ (s : State) (profile : Half) (data : List Byte), Ready s → hasExtension s.byte → (data.length + 3) / 4 ≤ 65535 →
    extensionOffset s.byte + 4 + 4 * ((data.length + 3) / 4) ≤ s.len.toNat →
    ∃ t, exec (.xput profile data) s = .next t ∧
      AnswersOnly .xprof t .ok (profile.setWidth 32) [] ∧
      AnswersOnly .xview t .ok (BitVec.ofNat 32 (4 * ((data.length + 3) / 4)))
        (data ++ List.replicate ((4 - data.length % 4) % 4) 0x00#8) ∧
      (∃ h, AnswersOnly .hlen t .ok h [] ∧ h.toNat = 12 + 4 * csrcCount s.byte + 4 + 4 * ((data.length + 3) / 4))

/-! ## Lifecycle (44_lifecycle.md) -/

/-- `ALLOC` creates a packet whose bytes are unspecified, one draw per byte, or answers `ERR_SIZE` (44_lifecycle.md R190).
That the draws are the free value `Config.allocByte` at the model's own counter `allocs`, which `ALLOC` advances, is the model's
choice (log entry 6). -/
def Obligations.AllocCreatesAnUnspecifiedPacket : Prop :=
  ∀ (s : State) (size : Word), NeedsNoPacket (.alloc size) s ∧ HasWords (.alloc size) (0x0100000000000000#64 ||| size.setWidth 64) [] ∧
    (s.fault = false → s.valid = false → size.toNat < 12 ∨ s.bufCap < size.toNat →
      AnswersOnly (.alloc size) s .errSize 0#32 []) ∧
    (s.fault = false → s.valid = false → 12 ≤ size.toNat → size.toNat ≤ s.bufCap →
      ∃ t, exec (.alloc size) s = .next t ∧ t.replies = s.replies ++ [⟨.ok, 0#32, []⟩] ∧
        t.len = size ∧ t.valid = true ∧ t.fault = s.fault ∧ t.fcause = s.fcause ∧ t.bufCap = s.bufCap ∧ t.port = s.port ∧
        t.resets = s.resets ∧ t.allocs = s.allocs + 1 ∧
        (∀ a, a < size.toNat → t.byte a = Config.allocByte s.allocs a) ∧
        (∀ a, size.toNat ≤ a → t.byte a = s.byte a))

/-- R191, R195: `LOAD` checks lengths only, in the order `ERR_SIZE`, `ERR_DECODE`, and copies the bytes. -/
def Obligations.LoadAcceptsBytesThatHoldTheirHeader : Prop :=
  ∀ (s : State) (bytes : List Byte), bytes.length < 4294967296 →
    let rd : Nat → Byte := fun a => bytes.getD a 0x00#8
    NeedsNoPacket (.load bytes) s ∧
    HasWords (.load bytes) (0x0200000000000000#64 ||| BitVec.ofNat 64 bytes.length) bytes ∧
    (s.fault = false → s.valid = false →
      (s.bufCap < bytes.length → AnswersOnly (.load bytes) s .errSize 0#32 []) ∧
      (bytes.length ≤ s.bufCap → bytes.length < 12 → AnswersOnly (.load bytes) s .errDecode 0#32 []) ∧
      (bytes.length ≤ s.bufCap → CountOutOfReach rd bytes.length → AnswersOnly (.load bytes) s .errDecode 0#32 []) ∧
      (bytes.length ≤ s.bufCap → ∀ h, DeclaresHeader rd h → bytes.length < h → AnswersOnly (.load bytes) s .errDecode 0#32 []) ∧
      (bytes.length ≤ s.bufCap → 12 ≤ bytes.length → ∀ h, DeclaresHeader rd h → h ≤ bytes.length →
        ∃ t, exec (.load bytes) s = .next t ∧ t.replies = s.replies ++ [⟨.ok, 0#32, []⟩] ∧
          t.len.toNat = bytes.length ∧ t.valid = true ∧ t.fault = s.fault ∧ t.fcause = s.fcause ∧ t.bufCap = s.bufCap ∧
          t.port = s.port ∧ t.resets = s.resets ∧ t.allocs = s.allocs ∧
          IsBytesAt t 0 bytes.length bytes ∧ (∀ a, bytes.length ≤ a → t.byte a = s.byte a)))

/-- R192: `SER` gives the buffer verbatim; `SER`, `FREE` and a `LOAD` of the same bytes restore the bytes and `LEN`, provided `LOAD`
accepts them. -/
def Obligations.SerGivesThePacketAndLoadRestoresIt : Prop :=
  (∀ s : State, NeedsPacket .ser s ∧ HasWords .ser 0x0300000000000000#64 [] ∧
    (Ready s → ∃ dout, AnswersOnly .ser s .ok s.len dout ∧ IsBytesAt s 0 s.len.toNat dout)) ∧
  (∀ s : State, Ready s → 12 ≤ s.len.toNat → s.len.toNat ≤ s.bufCap → ∀ h, DeclaresHeader s.byte h → h ≤ s.len.toNat →
    ∃ dout t u, AnswersOnly .ser s .ok s.len dout ∧ exec .free s = .next t ∧ exec (.load dout) t = .next u ∧
      u.valid = true ∧ u.len = s.len ∧ ∀ a, a < s.len.toNat → u.byte a = s.byte a)

/-- R193: `FREE` releases the packet; `BUF` is not written and the latch not cleared. -/
def Obligations.FreeReleasesThePacket : Prop :=
  ∀ s : State, NeedsPacket .free s ∧ HasWords .free 0x0400000000000000#64 [] ∧
    (Ready s → exec .free s =
      .next { s with valid := false, len := 0#32, replies := s.replies ++ [⟨.ok, 0#32, []⟩] })

/-- 70_reset_and_hazards.md R243 (marked there as derived): after a `LOAD` that was accepted, every read command answers `OK` for as
long as `LEN`, byte 0 and the two word-count bytes are not changed. -/
def Obligations.AfterLoadEveryReadAnswersOk : Prop :=
  ∀ (bytes : List Byte) (s t u : State), bytes.length < 4294967296 → s.fault = false → s.valid = false →
    exec (.load bytes) s = .next t → t.valid = true →
    Ready u → u.len = t.len → u.byte 0 = t.byte 0 →
    (hasExtension t.byte →
      u.byte (extensionOffset t.byte + 2) = t.byte (extensionOffset t.byte + 2) ∧
      u.byte (extensionOffset t.byte + 3) = t.byte (extensionOffset t.byte + 3)) →
    ∀ i ∈ readCommands, ∃ v dout, AnswersOnly i u .ok v dout

/-! ## The whole machine -/

/-- Right after reset the relations of R33 hold, `BUF` is in canonical form (the model's own, log entry 7), and no packet is
malformed. -/
def Obligations.ResetMeetsTheInvariants : Prop := ControlInv State.reset ∧ BufInv State.reset ∧ HeaderFits State.reset

/-- 10_state.md R33 (marked there as derived): the relations between `LEN`, `VALID`, `FAULT` and `FCAUSE` hold after every step,
whatever the host does, from every state in which they hold. -/
def Obligations.StepKeepsTheControlRelations : Prop :=
  ∀ s t : State, ControlInv s → step s = .next t → ControlInv t

/-- Every step keeps `BUF` canonical, inside `BUF_CAP`, and written at every offset of the packet, so that no run ever reads a byte
that reset left (10_state.md R34; log entry 7). -/
def Obligations.StepKeepsTheBufferWritten : Prop :=
  ∀ s t : State, ControlInv s → BufInv s → step s = .next t → BufInv t

/-- The table of 20_memory.md R62 (marked there as derived) and 10_state.md R21: a command writes only its own bytes, and a command
that needs a packet writes no offset at `LEN` or above. -/
def Obligations.CommandsWriteOnlyTheirBytes : Prop :=
  ∀ (i : Instr) (s t : State), exec i s = .next t →
    (∀ a, ¬ WrittenByte i s a → t.byte a = s.byte a) ∧
    (ControlInv s → createsPacket i = false → ∀ a, s.len.toNat ≤ a → t.byte a = s.byte a)

/-- 10_state.md R22, R23: `LEN` is fixed when the packet is created, and `VALID` is set by `ALLOC` and `LOAD` and cleared by `FREE`; no
step changes `BUF_CAP`. -/
def Obligations.OnlyCreationAndReleaseChangeLenAndValid : Prop :=
  (∀ (i : Instr) (s t : State), exec i s = .next t → t.len ≠ s.len → createsPacket i = true ∨ i = .free) ∧
  (∀ (i : Instr) (s t : State), exec i s = .next t → t.valid ≠ s.valid →
    (createsPacket i = true ∧ t.valid = true) ∨ (i = .free ∧ t.valid = false)) ∧
  (∀ s t : State, step s = .next t → t.bufCap = s.bufCap)

/-- What any command answers depends on the elements, the bytes below `LEN`, and (for the bytes `ALLOC` draws) the model's own count
`allocs` (log entry 6), and on nothing else: not on the bytes at `LEN` and above, the port, the earlier responses or the count of
resets; two states that agree on the former still agree after it (10_state.md R21, 20_memory.md R67). -/
def Obligations.BytesBeyondLenAreUnobservable : Prop :=
  ∀ (i : Instr) (s s' : State), ControlInv s → Indistinct s s' →
    ∃ t t' r, exec i s = .next t ∧ exec i s' = .next t' ∧ t.replies = s.replies ++ [r] ∧ t'.replies = s'.replies ++ [r] ∧
      Indistinct t t'

/-- 20_memory.md R64: the answer of a read command depends on `VALID`, `FAULT`, `LEN` and the bytes below `LEN` alone, and it writes
nothing, except that it may set the latch. -/
def Obligations.ReadsDependOnThePacketAlone : Prop :=
  (∀ i ∈ readCommands, ∀ s s' : State, ControlInv s → s'.valid = s.valid → s'.fault = s.fault → s'.len = s.len →
    (∀ a, a < s.len.toNat → s'.byte a = s.byte a) →
    ∃ t t' r, exec i s = .next t ∧ exec i s' = .next t' ∧ t.replies = s.replies ++ [r] ∧ t'.replies = s'.replies ++ [r]) ∧
  (∀ i ∈ readCommands, ∀ s t : State, exec i s = .next t →
    t.buf = s.buf ∧ t.len = s.len ∧ t.valid = s.valid ∧ t.resets = s.resets ∧ t.allocs = s.allocs)

/-- From 70_reset_and_hazards.md R243 and 10_state.md R33 (both marked there as derived): a step keeps the declared header inside
`LEN`, unless its command is one that may lengthen the header. -/
def Obligations.StepKeepsTheHeaderFitting : Prop :=
  ∀ s t : State, HeaderFits s → step s = .next t →
    (∀ w din rest i, s.port = .command w din :: rest → decodeCommand w din = .ok i → mayLengthenHeader i = false) →
    HeaderFits t
end

