-- ==== Sys2Proof/Laws/Bytes.lean ====
section
/-! SUPPORT. Byte order: what is written big-endian is read back, and the numbers the bytes stand for. -/
namespace Sys2Proof.Machine

@[simp] theorem be16_length (v : Half) : (be16 v).length = 2 := rfl

@[simp] theorem be32_length (v : Word) : (be32 v).length = 4 := rfl

/-- The two bytes of a 16-bit value make it again. -/
theorem append_bytes16 (v : Half) : (v.extractLsb' 8 8 ++ v.extractLsb' 0 8 : BitVec (8 + 8)) = v := by
  apply BitVec.eq_of_getLsbD_eq
  intro i hi
  simp only [BitVec.getLsbD_append, BitVec.getLsbD_extractLsb']
  by_cases h : i < 8
  · simp [h]
  · have e : 8 + (i - 8) = i := by omega
    simp [h, e]
    omega

/-- The four bytes of a 32-bit value make it again. -/
theorem append_bytes32 (v : Word) :
    (v.extractLsb' 24 8 ++ v.extractLsb' 16 8 ++ v.extractLsb' 8 8 ++ v.extractLsb' 0 8 : BitVec (8 + 8 + 8 + 8)) = v := by
  apply BitVec.eq_of_getLsbD_eq
  intro i hi
  simp only [BitVec.getLsbD_append, BitVec.getLsbD_extractLsb']
  by_cases h0 : i < 8
  · simp [h0]
  · by_cases h1 : i - 8 < 8
    · have e : 8 + (i - 8) = i := by omega
      simp [h0, h1, e]
    · by_cases h2 : i - 8 - 8 < 8
      · have e : 16 + (i - 8 - 8) = i := by omega
        simp [h0, h1, h2, e]
      · have e : 24 + (i - 8 - 8 - 8) = i := by omega
        have h3 : i - 8 - 8 - 8 < 8 := by omega
        simp [h0, h1, h2, h3, e]

/-- A 16-bit value written at `a` reads back. -/
theorem rd16_of_be16 {rd : Nat → Byte} {a : Nat} {v : Half} (h : ∀ k, k < 2 → (be16 v)[k]? = some (rd (a + k))) :
    rd16 rd a = v := by
  have h0 := h 0 (by omega)
  have h1 := h 1 (by omega)
  simp only [be16, List.getElem?_cons_zero, List.getElem?_cons_succ, Option.some.injEq, Nat.add_zero] at h0 h1
  rw [rd16, ← h0, ← h1]
  exact append_bytes16 v

/-- A 32-bit value written at `a` reads back. -/
theorem rd32_of_be32 {rd : Nat → Byte} {a : Nat} {v : Word} (h : ∀ k, k < 4 → (be32 v)[k]? = some (rd (a + k))) :
    rd32 rd a = v := by
  have h0 := h 0 (by omega)
  have h1 := h 1 (by omega)
  have h2 := h 2 (by omega)
  have h3 := h 3 (by omega)
  simp only [be32, List.getElem?_cons_zero, List.getElem?_cons_succ, Option.some.injEq, Nat.add_zero] at h0 h1 h2 h3
  rw [rd32, ← h0, ← h1, ← h2, ← h3]
  exact append_bytes32 v

/-- The number of two bytes appended. -/
theorem toNat_append_byte {w : Nat} (x : BitVec w) (b : Byte) : (x ++ b).toNat = 256 * x.toNat + b.toNat := by
  rw [BitVec.toNat_append, Nat.shiftLeft_eq, Nat.mul_comm, Nat.two_pow_add_eq_or_of_lt b.isLt]

/-- `rd16` is the big-endian number of its two bytes. -/
theorem rd16_toNat (rd : Nat → Byte) (a : Nat) : (rd16 rd a).toNat = 256 * (rd a).toNat + (rd (a + 1)).toNat :=
  toNat_append_byte _ _

/-- `rd32` is the big-endian number of its four bytes. -/
theorem rd32_toNat (rd : Nat → Byte) (a : Nat) :
    (rd32 rd a).toNat =
      16777216 * (rd a).toNat + 65536 * (rd (a + 1)).toNat + 256 * (rd (a + 2)).toNat + (rd (a + 3)).toNat := by
  unfold rd32
  rw [toNat_append_byte, toNat_append_byte, toNat_append_byte]
  omega

/-! ## CSRC lists -/

@[simp] theorem entriesToBytes_length (c : List Word) : (entriesToBytes c).length = 4 * c.length := by
  induction c with
  | nil => rfl
  | cons x xs ih => simp [entriesToBytes, ih]; omega

/-- A CSRC list is read back from its bytes. -/
theorem bytesToEntries_entriesToBytes (c : List Word) : bytesToEntries (entriesToBytes c) = c := by
  induction c with
  | nil => rfl
  | cons x xs ih =>
    simp only [entriesToBytes, be32, List.cons_append, List.nil_append, bytesToEntries, ih]
    rw [append_bytes32 x]

/-- Entry `i` stands at bytes `4i .. 4i+3`. -/
theorem entriesToBytes_getElem? (l : List Word) {i k : Nat} (hi : i < l.length) (hk : k < 4) :
    (entriesToBytes l)[4 * i + k]? = (be32 l[i])[k]? := by
  induction l generalizing i with
  | nil => simp at hi
  | cons x xs ih =>
    cases i with
    | zero =>
      have e : 4 * 0 + k = k := by omega
      rw [e, entriesToBytes, List.getElem?_append_left (by simpa using hk)]
      rfl
    | succ i =>
      have e : 4 * (i + 1) + k - 4 = 4 * i + k := by omega
      rw [entriesToBytes, List.getElem?_append_right (by simp; omega), be32_length, e, ih (by simpa using hi)]
      simp

/-- Entry `i` of a byte string whose length is a multiple of 4. -/
theorem bytesToEntries_getElem? {rd : Nat → Byte} {a n : Nat} {bs : List Byte} (hlen : bs.length = 4 * n)
    (h : ∀ k, k < 4 * n → bs[k]? = some (rd (a + k))) {i : Nat} (hi : i < n) :
    (bytesToEntries bs)[i]? = some (rd32 rd (a + 4 * i)) := by
  induction n generalizing bs a i with
  | zero => omega
  | succ n ih =>
    match bs, hlen, h with
    | b0 :: b1 :: b2 :: b3 :: rest, hlen, h =>
      have h0 := h 0 (by omega)
      have h1 := h 1 (by omega)
      have h2 := h 2 (by omega)
      have h3 := h 3 (by omega)
      simp only [List.getElem?_cons_zero, List.getElem?_cons_succ, Option.some.injEq, Nat.add_zero] at h0 h1 h2 h3
      cases i with
      | zero => simp [bytesToEntries, rd32, h0, h1, h2, h3]
      | succ i =>
        have e : a + 4 * (i + 1) = (a + 4) + 4 * i := by omega
        rw [bytesToEntries, List.getElem?_cons_succ, e]
        apply ih
        · simp only [List.length_cons] at hlen; omega
        · intro k hk
          have := h (k + 4) (by omega)
          simp only [List.getElem?_cons_succ] at this
          rw [this]
          congr 2
          omega
        · omega
    | [], hlen, _ => simp at hlen
    | [_], hlen, _ => simp at hlen; omega
    | [_, _], hlen, _ => simp at hlen; omega
    | [_, _, _], hlen, _ => simp at hlen; omega

/-- Four bytes make one entry. -/
theorem bytesToEntries_length {n : Nat} {bs : List Byte} (hlen : bs.length = 4 * n) : (bytesToEntries bs).length = n := by
  induction n generalizing bs with
  | zero =>
    have : bs = [] := List.eq_nil_of_length_eq_zero (by omega)
    subst this
    rfl
  | succ n ih =>
    match bs, hlen with
    | b0 :: b1 :: b2 :: b3 :: rest, hlen =>
      simp only [List.length_cons] at hlen
      rw [bytesToEntries, List.length_cons, ih (by omega)]
    | [], hlen => simp at hlen
    | [_], hlen => simp at hlen; omega
    | [_, _], hlen => simp at hlen; omega
    | [_, _, _], hlen => simp at hlen; omega

end Sys2Proof.Machine
end

