-- ==== Sys2Proof/Laws/Decode.lean ====
section
/-! SUPPORT. The fields of a command word and what the decoder reads from a word put together from fields. -/
namespace Sys2Proof

/-! ## Fields -/

theorem CmdWord.opc_ofFields (o r : BitVec 8) (a : Half) (v : Word) : (CmdWord.ofFields o r a v).opc = o := by
  apply BitVec.eq_of_getLsbD_eq
  intro i hi
  unfold CmdWord.opc CmdWord.ofFields
  rw [BitVec.getLsbD_extractLsb', BitVec.getLsbD_append, BitVec.getLsbD_append, BitVec.getLsbD_append,
    if_neg (by omega), if_neg (by omega), if_neg (by omega)]
  have e : 56 + i - 32 - 16 - 8 = i := by omega
  simp [e, hi]

theorem CmdWord.rsv_ofFields (o r : BitVec 8) (a : Half) (v : Word) : (CmdWord.ofFields o r a v).rsv = r := by
  apply BitVec.eq_of_getLsbD_eq
  intro i hi
  unfold CmdWord.rsv CmdWord.ofFields
  rw [BitVec.getLsbD_extractLsb', BitVec.getLsbD_append, BitVec.getLsbD_append, BitVec.getLsbD_append,
    if_neg (by omega), if_neg (by omega), if_pos (by omega)]
  have e : 48 + i - 32 - 16 = i := by omega
  simp [e, hi]

theorem CmdWord.a16_ofFields (o r : BitVec 8) (a : Half) (v : Word) : (CmdWord.ofFields o r a v).a16 = a := by
  apply BitVec.eq_of_getLsbD_eq
  intro i hi
  unfold CmdWord.a16 CmdWord.ofFields
  rw [BitVec.getLsbD_extractLsb', BitVec.getLsbD_append, BitVec.getLsbD_append, if_neg (by omega), if_pos (by omega)]
  have e : 32 + i - 32 = i := by omega
  simp [e, hi]

theorem CmdWord.a32_ofFields (o r : BitVec 8) (a : Half) (v : Word) : (CmdWord.ofFields o r a v).a32 = v := by
  apply BitVec.eq_of_getLsbD_eq
  intro i hi
  unfold CmdWord.a32 CmdWord.ofFields
  rw [BitVec.getLsbD_extractLsb', BitVec.getLsbD_append, if_pos (by omega)]
  have e : 0 + i = i := by omega
  simp [e, hi]

/-- A command word is its four fields. -/
theorem CmdWord.ofFields_eta (w : CmdWord) : CmdWord.ofFields w.opc w.rsv w.a16 w.a32 = w := by
  apply BitVec.eq_of_getLsbD_eq
  intro i hi
  unfold CmdWord.ofFields CmdWord.opc CmdWord.rsv CmdWord.a16 CmdWord.a32
  rw [BitVec.getLsbD_append, BitVec.getLsbD_append, BitVec.getLsbD_append]
  simp only [BitVec.getLsbD_extractLsb']
  by_cases h0 : i < 32
  · simp [h0]
  · by_cases h1 : i - 32 < 16
    · have e : 32 + (i - 32) = i := by omega
      simp [h0, h1, e]
    · by_cases h2 : i - 32 - 16 < 8
      · have e : 48 + (i - 32 - 16) = i := by omega
        simp [h0, h1, h2, e]
      · have e : 56 + (i - 32 - 16 - 8) = i := by omega
        have h3 : i - 32 - 16 - 8 < 8 := by omega
        simp [h0, h1, h2, h3, e]

/-! ## The opcode map -/

/-- Every row is listed. -/
theorem Op.mem_all (o : Op) : o ∈ Op.all := by cases o <;> decide

/-- The opcode of a row selects that row. -/
theorem Op.ofOpc_opc (o : Op) : Op.ofOpc o.opc = some o := by cases o <;> decide

/-- Only the row's opcode selects it. -/
theorem Op.opc_of_ofOpc {b : BitVec 8} {o : Op} (h : Op.ofOpc b = some o) : o.opc = b := by
  have := List.find?_some h
  simpa using this

/-- Opcodes are distinct (30_encoding.md R88). -/
theorem Op.opc_injective {o p : Op} (h : o.opc = p.opc) : o = p := by
  have h1 := Op.ofOpc_opc o
  rw [h, Op.ofOpc_opc] at h1
  exact (Option.some.inj h1).symm

/-! ## Decoding -/

/-- A word of a row's opcode with `RSV` 0, `A16` 0 unless the row uses it, and `A32` inside its operand is that row. -/
theorem decodeWord_ofFields (o : Op) (a : Half) (v : Word) (ha : o.usesA16 = false → a = 0#16) (hv : v.toNat < 2 ^ o.a32Bits) :
    decodeWord (CmdWord.ofFields o.opc 0#8 a v) = .ok o := by
  unfold decodeWord
  rw [CmdWord.opc_ofFields, Op.ofOpc_opc]
  simp only [CmdWord.rsv_ofFields, CmdWord.a16_ofFields, CmdWord.a32_ofFields]
  rw [if_neg (by simp), if_neg (by rintro ⟨h1, h2⟩; exact h2 (ha h1)), if_neg (by omega)]

/-- When a word is the row `o`: the opcode, and every other bit outside the operands 0 (30_encoding.md R88, R89). -/
theorem decodeWord_eq_ok_iff (w : CmdWord) (o : Op) :
    decodeWord w = .ok o ↔
      w.opc = o.opc ∧ w.rsv = 0#8 ∧ (o.usesA16 = false → w.a16 = 0#16) ∧ w.a32.toNat < 2 ^ o.a32Bits := by
  constructor
  · intro h
    unfold decodeWord at h
    split at h
    · cases h
    · rename_i p hp
      split at h
      · cases h
      · split at h
        · cases h
        · split at h
          · cases h
          · rename_i h1 h2 h3
            cases h
            refine ⟨(Op.opc_of_ofOpc hp).symm, by simpa using h1, ?_, by omega⟩
            intro hu
            by_contra hc
            exact h2 ⟨hu, hc⟩
  · rintro ⟨h1, h2, h3, h4⟩
    rw [← CmdWord.ofFields_eta w, h1, h2]
    exact decodeWord_ofFields o w.a16 w.a32 h3 h4

/-- `DIN` of a legal word. -/
theorem decodeCommand_of_ok {w : CmdWord} {o : Op} {din : List Byte} (h : decodeWord w = .ok o) (hl : din.length = dinBytes w) :
    decodeCommand w din = .ok (o.instr w din) := by
  unfold decodeCommand
  rw [if_neg (by simpa using hl), h]

end Sys2Proof
end

