-- ==== Sys2Proof/Laws/Fields.lean ====
section
/-! SUPPORT. The bit fields by their positions (20_memory.md R53): each extraction is the field's bits, each masked write replaces
the field's bits and keeps the others. -/
namespace Sys2Proof.Machine

/-! ## Extraction -/

theorem fV_eq (b : Byte) : fV b = (b.extractLsb' 6 2).setWidth 8 := by revert b; decide
theorem fP_eq (b : Byte) : fP b = (b.extractLsb' 5 1).setWidth 8 := by revert b; decide
theorem fX_eq (b : Byte) : fX b = (b.extractLsb' 4 1).setWidth 8 := by revert b; decide
theorem fCC_eq (b : Byte) : fCC b = (b.extractLsb' 0 4).setWidth 8 := by revert b; decide
theorem fM_eq (b : Byte) : fM b = (b.extractLsb' 7 1).setWidth 8 := by revert b; decide
theorem fPT_eq (b : Byte) : fPT b = (b.extractLsb' 0 7).setWidth 8 := by revert b; decide

theorem ccOf_eq (b : Byte) : ccOf b = (b.extractLsb' 0 4).toNat := by revert b; decide
theorem ccOf_le (b : Byte) : ccOf b ≤ 15 := by revert b; decide
theorem fX_eq_one (b : Byte) : fX b = 1#8 ↔ b.getLsbD 4 = true := by revert b; decide

/-! ## Masked writes -/

theorem putV_eq (b : Byte) (v : BitVec 2) : putV b v = v ++ b.extractLsb' 0 6 := by revert v b; decide
theorem setPBit_eq (b : Byte) : setPBit b = b.extractLsb' 6 2 ++ 1#1 ++ b.extractLsb' 0 5 := by revert b; decide
theorem clrPBit_eq (b : Byte) : clrPBit b = b.extractLsb' 6 2 ++ 0#1 ++ b.extractLsb' 0 5 := by revert b; decide
theorem setXBit_eq (b : Byte) : setXBit b = b.extractLsb' 5 3 ++ 1#1 ++ b.extractLsb' 0 4 := by revert b; decide
theorem clrXBit_eq (b : Byte) : clrXBit b = b.extractLsb' 5 3 ++ 0#1 ++ b.extractLsb' 0 4 := by revert b; decide
theorem setMBit_eq (b : Byte) : setMBit b = 1#1 ++ b.extractLsb' 0 7 := by revert b; decide
theorem clrMBit_eq (b : Byte) : clrMBit b = 0#1 ++ b.extractLsb' 0 7 := by revert b; decide

theorem putPT_eq (b : Byte) (v : BitVec 7) : putPT b v = b.extractLsb' 7 1 ++ v := by
  suffices h : (b.extractLsb' 7 1 ++ v : BitVec (1 + 7)) = putPT b v from h.symm
  apply BitVec.eq_of_getLsbD_eq
  intro i hi
  have : i = 0 ∨ i = 1 ∨ i = 2 ∨ i = 3 ∨ i = 4 ∨ i = 5 ∨ i = 6 ∨ i = 7 := by omega
  rw [BitVec.getLsbD_append]
  rcases this with rfl | rfl | rfl | rfl | rfl | rfl | rfl | rfl <;> simp [putPT]

theorem putCC_eq (b : Byte) (v : Word) : putCC b v = b.extractLsb' 4 4 ++ v.extractLsb' 0 4 := by
  suffices h : (b.extractLsb' 4 4 ++ v.extractLsb' 0 4 : BitVec (4 + 4)) = putCC b v from h.symm
  apply BitVec.eq_of_getLsbD_eq
  intro i hi
  have : i = 0 ∨ i = 1 ∨ i = 2 ∨ i = 3 ∨ i = 4 ∨ i = 5 ∨ i = 6 ∨ i = 7 := by omega
  rw [BitVec.getLsbD_append]
  rcases this with rfl | rfl | rfl | rfl | rfl | rfl | rfl | rfl <;> simp [putCC]

end Sys2Proof.Machine
end

