-- ==== Sys2Proof/Laws/State.lean ====
section
/-! SUPPORT. One lemma per field per update of the state, and what the updates that do not write `BUF` leave readable. -/
namespace Sys2Proof.Machine

@[simp] theorem State.respond_bufCap (s : State) (st : Status) (v : Word) (d : List Byte) : (s.respond st v d).bufCap = s.bufCap := rfl
@[simp] theorem State.respond_buf (s : State) (st : Status) (v : Word) (d : List Byte) : (s.respond st v d).buf = s.buf := rfl
@[simp] theorem State.respond_len (s : State) (st : Status) (v : Word) (d : List Byte) : (s.respond st v d).len = s.len := rfl
@[simp] theorem State.respond_valid (s : State) (st : Status) (v : Word) (d : List Byte) : (s.respond st v d).valid = s.valid := rfl
@[simp] theorem State.respond_fault (s : State) (st : Status) (v : Word) (d : List Byte) : (s.respond st v d).fault = s.fault := rfl
@[simp] theorem State.respond_fcause (s : State) (st : Status) (v : Word) (d : List Byte) : (s.respond st v d).fcause = s.fcause := rfl
@[simp] theorem State.respond_port (s : State) (st : Status) (v : Word) (d : List Byte) : (s.respond st v d).port = s.port := rfl
@[simp] theorem State.respond_replies (s : State) (st : Status) (v : Word) (d : List Byte) : (s.respond st v d).replies = s.replies ++ [⟨st, v, d⟩] := rfl
@[simp] theorem State.respond_resets (s : State) (st : Status) (v : Word) (d : List Byte) : (s.respond st v d).resets = s.resets := rfl
@[simp] theorem State.respond_allocs (s : State) (st : Status) (v : Word) (d : List Byte) : (s.respond st v d).allocs = s.allocs := rfl
@[simp] theorem State.respond_byte (s : State) (st : Status) (v : Word) (d : List Byte) (a : Nat) : (s.respond st v d).byte a = s.byte a := rfl

@[simp] theorem State.done_bufCap (s : State) : s.done.bufCap = s.bufCap := rfl
@[simp] theorem State.done_buf (s : State) : s.done.buf = s.buf := rfl
@[simp] theorem State.done_len (s : State) : s.done.len = s.len := rfl
@[simp] theorem State.done_valid (s : State) : s.done.valid = s.valid := rfl
@[simp] theorem State.done_fault (s : State) : s.done.fault = s.fault := rfl
@[simp] theorem State.done_fcause (s : State) : s.done.fcause = s.fcause := rfl
@[simp] theorem State.done_port (s : State) : s.done.port = s.port := rfl
@[simp] theorem State.done_replies (s : State) : s.done.replies = s.replies ++ [⟨.ok, 0#32, []⟩] := rfl
@[simp] theorem State.done_resets (s : State) : s.done.resets = s.resets := rfl
@[simp] theorem State.done_allocs (s : State) : s.done.allocs = s.allocs := rfl
@[simp] theorem State.done_byte (s : State) (a : Nat) : s.done.byte a = s.byte a := rfl

@[simp] theorem State.value_bufCap (s : State) (v : Word) : (s.value v).bufCap = s.bufCap := rfl
@[simp] theorem State.value_buf (s : State) (v : Word) : (s.value v).buf = s.buf := rfl
@[simp] theorem State.value_len (s : State) (v : Word) : (s.value v).len = s.len := rfl
@[simp] theorem State.value_valid (s : State) (v : Word) : (s.value v).valid = s.valid := rfl
@[simp] theorem State.value_fault (s : State) (v : Word) : (s.value v).fault = s.fault := rfl
@[simp] theorem State.value_fcause (s : State) (v : Word) : (s.value v).fcause = s.fcause := rfl
@[simp] theorem State.value_port (s : State) (v : Word) : (s.value v).port = s.port := rfl
@[simp] theorem State.value_replies (s : State) (v : Word) : (s.value v).replies = s.replies ++ [⟨.ok, v, []⟩] := rfl
@[simp] theorem State.value_resets (s : State) (v : Word) : (s.value v).resets = s.resets := rfl
@[simp] theorem State.value_allocs (s : State) (v : Word) : (s.value v).allocs = s.allocs := rfl
@[simp] theorem State.value_byte (s : State) (v : Word) (a : Nat) : (s.value v).byte a = s.byte a := rfl

@[simp] theorem State.fail_bufCap (s : State) (st : Status) : (s.fail st).bufCap = s.bufCap := rfl
@[simp] theorem State.fail_buf (s : State) (st : Status) : (s.fail st).buf = s.buf := rfl
@[simp] theorem State.fail_len (s : State) (st : Status) : (s.fail st).len = s.len := rfl
@[simp] theorem State.fail_valid (s : State) (st : Status) : (s.fail st).valid = s.valid := rfl
@[simp] theorem State.fail_fault (s : State) (st : Status) : (s.fail st).fault = s.fault := rfl
@[simp] theorem State.fail_fcause (s : State) (st : Status) : (s.fail st).fcause = s.fcause := rfl
@[simp] theorem State.fail_port (s : State) (st : Status) : (s.fail st).port = s.port := rfl
@[simp] theorem State.fail_replies (s : State) (st : Status) : (s.fail st).replies = s.replies ++ [⟨st, 0#32, []⟩] := rfl
@[simp] theorem State.fail_resets (s : State) (st : Status) : (s.fail st).resets = s.resets := rfl
@[simp] theorem State.fail_allocs (s : State) (st : Status) : (s.fail st).allocs = s.allocs := rfl
@[simp] theorem State.fail_byte (s : State) (st : Status) (a : Nat) : (s.fail st).byte a = s.byte a := rfl

@[simp] theorem State.raiseBounds_bufCap (s : State) : s.raiseBounds.bufCap = s.bufCap := rfl
@[simp] theorem State.raiseBounds_buf (s : State) : s.raiseBounds.buf = s.buf := rfl
@[simp] theorem State.raiseBounds_len (s : State) : s.raiseBounds.len = s.len := rfl
@[simp] theorem State.raiseBounds_valid (s : State) : s.raiseBounds.valid = s.valid := rfl
@[simp] theorem State.raiseBounds_fault (s : State) : s.raiseBounds.fault = true := rfl
@[simp] theorem State.raiseBounds_fcause (s : State) : s.raiseBounds.fcause = 0x8#4 := rfl
@[simp] theorem State.raiseBounds_port (s : State) : s.raiseBounds.port = s.port := rfl
@[simp] theorem State.raiseBounds_replies (s : State) : s.raiseBounds.replies = s.replies ++ [⟨.faultBounds, 0#32, []⟩] := rfl
@[simp] theorem State.raiseBounds_resets (s : State) : s.raiseBounds.resets = s.resets := rfl
@[simp] theorem State.raiseBounds_allocs (s : State) : s.raiseBounds.allocs = s.allocs := rfl
@[simp] theorem State.raiseBounds_byte (s : State) (a : Nat) : s.raiseBounds.byte a = s.byte a := rfl

@[simp] theorem State.store_bufCap (s : State) (a : Nat) (bs : List Byte) : (s.store a bs).bufCap = s.bufCap := rfl
@[simp] theorem State.store_buf (s : State) (a : Nat) (bs : List Byte) : (s.store a bs).buf = s.buf.put a bs := rfl
@[simp] theorem State.store_len (s : State) (a : Nat) (bs : List Byte) : (s.store a bs).len = s.len := rfl
@[simp] theorem State.store_valid (s : State) (a : Nat) (bs : List Byte) : (s.store a bs).valid = s.valid := rfl
@[simp] theorem State.store_fault (s : State) (a : Nat) (bs : List Byte) : (s.store a bs).fault = s.fault := rfl
@[simp] theorem State.store_fcause (s : State) (a : Nat) (bs : List Byte) : (s.store a bs).fcause = s.fcause := rfl
@[simp] theorem State.store_port (s : State) (a : Nat) (bs : List Byte) : (s.store a bs).port = s.port := rfl
@[simp] theorem State.store_replies (s : State) (a : Nat) (bs : List Byte) : (s.store a bs).replies = s.replies := rfl
@[simp] theorem State.store_resets (s : State) (a : Nat) (bs : List Byte) : (s.store a bs).resets = s.resets := rfl
@[simp] theorem State.store_allocs (s : State) (a : Nat) (bs : List Byte) : (s.store a bs).allocs = s.allocs := rfl

@[simp] theorem State.resetEvent_bufCap (s : State) : s.resetEvent.bufCap = s.bufCap := rfl
@[simp] theorem State.resetEvent_buf (s : State) : s.resetEvent.buf = [] := rfl
@[simp] theorem State.resetEvent_len (s : State) : s.resetEvent.len = 0#32 := rfl
@[simp] theorem State.resetEvent_valid (s : State) : s.resetEvent.valid = false := rfl
@[simp] theorem State.resetEvent_fault (s : State) : s.resetEvent.fault = false := rfl
@[simp] theorem State.resetEvent_fcause (s : State) : s.resetEvent.fcause = 0#4 := rfl
@[simp] theorem State.resetEvent_port (s : State) : s.resetEvent.port = s.port := rfl
@[simp] theorem State.resetEvent_replies (s : State) : s.resetEvent.replies = s.replies := rfl
@[simp] theorem State.resetEvent_resets (s : State) : s.resetEvent.resets = s.resets + 1 := rfl
@[simp] theorem State.resetEvent_allocs (s : State) : s.resetEvent.allocs = s.allocs := rfl

/-- A byte is a function of what has been written and of which reset came last. -/
theorem State.byte_congr {s t : State} (hb : t.buf = s.buf) (hr : t.resets = s.resets) (a : Nat) : t.byte a = s.byte a := by
  unfold State.byte State.unwritten
  rw [hb, hr]

end Sys2Proof.Machine
end

