-- ==== Sys2Proof/Laws/Memory.lean ====
section
/-! SUPPORT. The laws of `BUF`: a store is read back, leaves every other offset alone, keeps the canonical form. -/
namespace Sys2Proof.Machine

/-! ## Cells -/

@[simp] theorem cellsAt_length (a : Nat) (bs : List Byte) : (cellsAt a bs).length = bs.length := by
  induction bs generalizing a with
  | nil => rfl
  | cons b bs ih => simp [cellsAt, ih]

/-- The cells of a store lie at its offsets. -/
theorem mem_cellsAt {a : Nat} {bs : List Byte} {c : Host.Cell} (h : c ∈ cellsAt a bs) : a ≤ c.1 ∧ c.1 < a + bs.length := by
  induction bs generalizing a with
  | nil => simp [cellsAt] at h
  | cons b bs ih =>
    simp only [cellsAt, List.mem_cons] at h
    rcases h with rfl | h
    · simp
    · have := ih h; simp only [List.length_cons]; omega

/-! ## Reading -/

theorem get?_eq_none_of_forall_ne {m : Memory} {a : Nat} (h : ∀ c ∈ m, c.1 ≠ a) : Memory.get? m a = none := by
  induction m with
  | nil => rfl
  | cons c m ih =>
    simp only [Memory.get?]
    rw [if_neg (h c (by simp)), ih (fun d hd => h d (by simp [hd]))]

theorem get?_append (m n : Memory) (a : Nat) :
    Memory.get? (m ++ n) a = (Memory.get? m a).or (Memory.get? n a) := by
  induction m with
  | nil => simp [Memory.get?]
  | cons c m ih =>
    simp only [List.cons_append, Memory.get?]
    split
    · simp
    · exact ih

/-- A filter on offsets that keeps `a` reads the same at `a`. -/
theorem get?_filter_of_keep {p : Nat → Bool} {a : Nat} (m : Memory) (h : p a = true) :
    Memory.get? (m.filter (fun c => p c.1)) a = Memory.get? m a := by
  induction m with
  | nil => rfl
  | cons c m ih =>
    by_cases hc : c.1 = a
    · simp [Memory.get?, hc, h]
    · by_cases hp : p c.1 = true
      · simp [hp, Memory.get?, hc, ih]
      · simp [hp, Memory.get?, hc, ih]

/-- A filter on offsets that drops `a` reads nothing at `a`. -/
theorem get?_filter_of_drop {p : Nat → Bool} {a : Nat} (m : Memory) (h : p a = false) :
    Memory.get? (m.filter (fun c => p c.1)) a = none := by
  apply get?_eq_none_of_forall_ne
  intro c hc hca
  rw [List.mem_filter] at hc
  rw [hca, h] at hc
  simp at hc

theorem get?_cellsAt (a : Nat) (bs : List Byte) (x : Nat) :
    Memory.get? (cellsAt a bs) x = if a ≤ x then bs[x - a]? else none := by
  induction bs generalizing a with
  | nil => simp [cellsAt, Memory.get?]
  | cons b bs ih =>
    simp only [cellsAt, Memory.get?, ih]
    by_cases h : a = x
    · subst h; simp
    · rw [if_neg h]
      by_cases h1 : a + 1 ≤ x
      · have e : x - a = (x - (a + 1)) + 1 := by omega
        rw [if_pos h1, if_pos (by omega), e, List.getElem?_cons_succ]
      · rw [if_neg h1, if_neg (by omega)]

/-- READ AFTER WRITE: inside a store the byte stored is read, outside it what was there. -/
theorem Memory.get?_put (m : Memory) (a : Nat) (bs : List Byte) (x : Nat) :
    (m.put a bs).get? x = if a ≤ x ∧ x < a + bs.length then bs[x - a]? else m.get? x := by
  unfold Memory.put
  rw [get?_append, get?_append, get?_cellsAt]
  by_cases h1 : x < a
  · rw [get?_filter_of_keep (p := fun y => decide (y < a)) m (by simpa using h1),
      get?_filter_of_drop (p := fun y => decide (a + bs.length ≤ y)) m (by simp; omega),
      if_neg (by omega), if_neg (by omega)]
    simp
  · rw [get?_filter_of_drop (p := fun y => decide (y < a)) m (by simpa using h1), if_pos (by omega : a ≤ x)]
    by_cases h2 : x < a + bs.length
    · rw [get?_filter_of_drop (p := fun y => decide (a + bs.length ≤ y)) m (by simp; omega), if_pos ⟨by omega, h2⟩]
      simp
    · rw [get?_filter_of_keep (p := fun y => decide (a + bs.length ≤ y)) m (by simp; omega), if_neg (by omega),
        List.getElem?_eq_none (by omega)]
      simp

/-- Inside a store: the byte stored. -/
theorem State.byte_store_inside (s : State) (a : Nat) (bs : List Byte) {k : Nat} (h : k < bs.length) :
    (s.store a bs).byte (a + k) = bs[k] := by
  simp [State.byte, Memory.get?_put, h]

/-- Outside a store: what was there. -/
theorem State.byte_store_outside (s : State) (a : Nat) (bs : List Byte) {x : Nat} (h : x < a ∨ a + bs.length ≤ x) :
    (s.store a bs).byte x = s.byte x := by
  have h' : ¬ (a ≤ x ∧ x < a + bs.length) := by omega
  simp only [State.byte, State.store_buf, Memory.get?_put, if_neg h', State.unwritten, State.store_resets]

/-- A store of one byte. -/
theorem State.byte_store_one (s : State) (a : Nat) (b : Byte) (x : Nat) :
    (s.store a [b]).byte x = if x = a then b else s.byte x := by
  by_cases h : x = a
  · subst h
    have := State.byte_store_inside s x [b] (k := 0) (by simp)
    simpa using this
  · rw [if_neg h]
    exact State.byte_store_outside s a [b] (by simp only [List.length_singleton]; omega)

/-! ## Byte strings -/

@[simp] theorem State.bytes_length (s : State) (a n : Nat) : (s.bytes a n).length = n := by simp [State.bytes]

theorem State.bytes_getElem? (s : State) (a n : Nat) {k : Nat} (h : k < n) : (s.bytes a n)[k]? = some (s.byte (a + k)) := by
  simp [State.bytes, h]

/-- Two states that agree on the bytes read give the same string. -/
theorem State.bytes_congr {s t : State} {a n : Nat} (h : ∀ k, k < n → t.byte (a + k) = s.byte (a + k)) :
    t.bytes a n = s.bytes a n := by
  unfold State.bytes
  apply List.map_congr_left
  intro k hk
  exact h k (List.mem_range.mp hk)

/-- A string just stored is read back. -/
theorem State.bytes_store (s : State) (a : Nat) (bs : List Byte) : (s.store a bs).bytes a bs.length = bs := by
  apply List.ext_getElem?
  intro k
  by_cases h : k < bs.length
  · rw [State.bytes_getElem? _ _ _ h, State.byte_store_inside s a bs h, List.getElem?_eq_getElem h]
  · rw [List.getElem?_eq_none (by simpa using h), List.getElem?_eq_none (by omega)]

/-! ## Canonical form -/

/-- The canonical form as a property of pairs: offsets strictly rise. -/
theorem Memory.wf_iff_pairwise (m : Memory) : m.wf = true ↔ m.Pairwise (fun c d => c.1 < d.1) := by
  induction m with
  | nil => simp [Memory.wf]
  | cons c m ih =>
    cases m with
    | nil => simp [Memory.wf]
    | cons d m =>
      rw [Memory.wf, Bool.and_eq_true, ih, decide_eq_true_iff, List.pairwise_cons (a := c)]
      constructor
      · rintro ⟨h, hp⟩
        refine ⟨?_, hp⟩
        intro e he
        rcases List.mem_cons.mp he with rfl | he
        · exact h
        · exact Nat.lt_trans h ((List.pairwise_cons.mp hp).1 e he)
      · rintro ⟨h, hp⟩
        exact ⟨h d (by simp), hp⟩

theorem cellsAt_pairwise (a : Nat) (bs : List Byte) : (cellsAt a bs).Pairwise (fun c d => c.1 < d.1) := by
  induction bs generalizing a with
  | nil => simp [cellsAt]
  | cons b bs ih =>
    rw [cellsAt, List.pairwise_cons]
    refine ⟨fun c hc => ?_, ih (a + 1)⟩
    have := mem_cellsAt hc
    omega

/-- A store keeps the canonical form. -/
theorem Memory.put_wf {m : Memory} (h : m.wf = true) (a : Nat) (bs : List Byte) : (m.put a bs).wf = true := by
  rw [Memory.wf_iff_pairwise] at *
  unfold Memory.put
  rw [List.pairwise_append, List.pairwise_append]
  refine ⟨⟨h.filter _, cellsAt_pairwise a bs, ?_⟩, h.filter _, ?_⟩
  · intro c hc d hd
    have h1 := mem_cellsAt hd
    simp only [List.mem_filter, decide_eq_true_iff] at hc
    omega
  · intro c hc d hd
    simp only [List.mem_append, List.mem_filter, decide_eq_true_iff] at hc hd
    rcases hc with ⟨_, hc⟩ | hc
    · omega
    · have h1 := mem_cellsAt hc
      omega

/-- Every entry after a store is an old one or lies in the store. -/
theorem Memory.mem_put {m : Memory} {a : Nat} {bs : List Byte} {c : Host.Cell} (h : c ∈ m.put a bs) :
    c ∈ m ∨ (a ≤ c.1 ∧ c.1 < a + bs.length) := by
  simp only [Memory.put, List.mem_append, List.mem_filter] at h
  rcases h with (h | h) | h
  · exact .inl h.1
  · exact .inr (mem_cellsAt h)
  · exact .inl h.1

/-- In canonical form, equal reads mean equal memories. -/
theorem Memory.eq_of_get?_eq {m n : Memory} (hm : m.wf = true) (hn : n.wf = true)
    (h : ∀ a, m.get? a = n.get? a) : m = n := by
  rw [Memory.wf_iff_pairwise] at hm hn
  induction m generalizing n with
  | nil =>
    cases n with
    | nil => rfl
    | cons d n => have := h d.1; simp [Memory.get?] at this
  | cons c m ih =>
    have hc := List.pairwise_cons.mp hm
    cases n with
    | nil => have := h c.1; simp [Memory.get?] at this
    | cons d n =>
      have hd := List.pairwise_cons.mp hn
      have hmc : Memory.get? m c.1 = none := get?_eq_none_of_forall_ne (fun e he => by have := hc.1 e he; omega)
      have hnd : Memory.get? n d.1 = none := get?_eq_none_of_forall_ne (fun e he => by have := hd.1 e he; omega)
      have low1 : ∀ x, x < c.1 → Memory.get? m x = none := fun x hx =>
        get?_eq_none_of_forall_ne (fun e he => by have := hc.1 e he; omega)
      have low2 : ∀ x, x < d.1 → Memory.get? n x = none := fun x hx =>
        get?_eq_none_of_forall_ne (fun e he => by have := hd.1 e he; omega)
      have e1 : c.1 = d.1 := by
        rcases Nat.lt_trichotomy c.1 d.1 with hlt | heq | hgt
        · have := h c.1
          simp only [Memory.get?, if_true] at this
          rw [if_neg (by omega), low2 _ hlt] at this
          simp at this
        · exact heq
        · have := h d.1
          simp only [Memory.get?, if_true] at this
          rw [if_neg (by omega), low1 _ hgt] at this
          simp at this
      have e2 : c.2 = d.2 := by
        have := h c.1
        simpa [Memory.get?, e1] using this
      have e3 : c = d := Prod.ext e1 e2
      subst e3
      congr 1
      apply ih hc.2 hd.2
      intro a
      by_cases ha : c.1 = a
      · subst ha; rw [hmc, hnd]
      · have := h a
        simpa [Memory.get?, ha] using this

end Sys2Proof.Machine
end

