-- ==== Sys2Proof/Laws/Ops.lean ====
section
/-! SUPPORT. One lemma per shared operation: what it can answer, to be cited instead of unfolding it. -/
namespace Sys2Proof.Machine

/-! ## The common prologue -/

theorem withPacket_faulted {s : State} (h : s.fault = true) (body : State) : withPacket s body = s.fail .faulted := by
  simp [withPacket, h]

theorem withPacket_noPacket {s : State} (hf : s.fault = false) (hv : s.valid = false) (body : State) :
    withPacket s body = s.fail .errState := by
  simp [withPacket, hf, hv]

theorem withPacket_ready {s : State} (h : Ready s) (body : State) : withPacket s body = body := by
  simp [withPacket, h.1, h.2]

theorem withoutPacket_faulted {s : State} (h : s.fault = true) (body : State) : withoutPacket s body = s.fail .faulted := by
  simp [withoutPacket, h]

theorem withoutPacket_hasPacket {s : State} (hf : s.fault = false) (hv : s.valid = true) (body : State) :
    withoutPacket s body = s.fail .errState := by
  simp [withoutPacket, hf, hv]

theorem withoutPacket_empty {s : State} (hf : s.fault = false) (hv : s.valid = false) (body : State) :
    withoutPacket s body = body := by
  simp [withoutPacket, hf, hv]

/-- Everything the prologue can answer for a command that needs a packet. -/
theorem withPacket_cases (s body : State) :
    (s.fault = true ∧ withPacket s body = s.fail .faulted) ∨
    (s.fault = false ∧ s.valid = false ∧ withPacket s body = s.fail .errState) ∨
    (Ready s ∧ withPacket s body = body) := by
  cases hf : s.fault with
  | true => exact .inl ⟨rfl, withPacket_faulted hf body⟩
  | false =>
    cases hv : s.valid with
    | false => exact .inr (.inl ⟨rfl, rfl, withPacket_noPacket hf hv body⟩)
    | true => exact .inr (.inr ⟨⟨hf, hv⟩, withPacket_ready ⟨hf, hv⟩ body⟩)

/-- Everything the prologue can answer for a command that creates a packet. -/
theorem withoutPacket_cases (s body : State) :
    (s.fault = true ∧ withoutPacket s body = s.fail .faulted) ∨
    (Ready s ∧ withoutPacket s body = s.fail .errState) ∨
    (s.fault = false ∧ s.valid = false ∧ withoutPacket s body = body) := by
  cases hf : s.fault with
  | true => exact .inl ⟨rfl, withoutPacket_faulted hf body⟩
  | false =>
    cases hv : s.valid with
    | false => exact .inr (.inr ⟨rfl, rfl, withoutPacket_empty hf hv body⟩)
    | true => exact .inr (.inl ⟨⟨hf, hv⟩, withoutPacket_hasPacket hf hv body⟩)

/-! ## The guard -/

theorem State.guard_eq_true {s : State} {a n : Nat} : s.guard a n = true ↔ a + n ≤ s.len.toNat := by
  simp [State.guard, inBounds]

theorem State.memReadBytes_eq_some {s : State} {a n : Nat} (h : a + n ≤ s.len.toNat) :
    s.memReadBytes a n = some (s.bytes a n) := by
  simp [State.memReadBytes, State.guard_eq_true.mpr h]

theorem State.memReadBytes_eq_none {s : State} {a n : Nat} (h : s.len.toNat < a + n) : s.memReadBytes a n = none := by
  have : ¬ s.guard a n = true := by rw [State.guard_eq_true]; omega
  simp [State.memReadBytes, this]

theorem guardedRead16_eq_some {rd : Nat → Byte} {len a : Nat} (h : a + 2 ≤ len) : guardedRead16 rd len a = some (rd16 rd a) := by
  simp [guardedRead16, inBounds, h]

theorem guardedRead16_eq_none {rd : Nat → Byte} {len a : Nat} (h : len < a + 2) : guardedRead16 rd len a = none := by
  have : ¬ a + 2 ≤ len := by omega
  simp [guardedRead16, inBounds, this]

/-! ## The layout functions against the formulas -/

theorem ccOf_eq_csrcCount (rd : Nat → Byte) : ccOf (rd 0) = csrcCount rd := ccOf_eq _

theorem csrcCount_le (rd : Nat → Byte) : csrcCount rd ≤ 15 := by rw [← ccOf_eq_csrcCount]; exact ccOf_le _

theorem xoffOf_eq (rd : Nat → Byte) : xoffOf (rd 0) = extensionOffset rd := by
  rw [xoffOf, extensionOffset, ccOf_eq_csrcCount]

theorem State.xflag_iff (s : State) : s.xflag = true ↔ hasExtension s.byte := by
  simp [State.xflag, hasExtension, fX_eq_one]

theorem rd16_toNat_eq_number16 (rd : Nat → Byte) (a : Nat) : (rd16 rd a).toNat = number16 rd a := rd16_toNat rd a

theorem number16_lt (rd : Nat → Byte) (a : Nat) : number16 rd a < 65536 := by
  rw [← rd16_toNat_eq_number16]; exact (rd16 rd a).isLt

/-- `headerLength` fails exactly when the word count is out of reach. -/
theorem headerLength_eq_none {rd : Nat → Byte} {len : Nat} (h : CountOutOfReach rd len) : headerLength rd len = none := by
  obtain ⟨hx, hl⟩ := h
  unfold headerLength
  rw [if_pos ((fX_eq_one _).mpr hx), xoffOf_eq, guardedRead16_eq_none (by omega)]

/-- Otherwise it is the declared header length. -/
theorem headerLength_eq_some {rd : Nat → Byte} {len : Nat} (h : ¬ CountOutOfReach rd len) :
    ∃ n, headerLength rd len = some n ∧ DeclaresHeader rd n := by
  unfold headerLength
  by_cases hx : hasExtension rd
  · have hl : extensionOffset rd + 2 + 2 ≤ len := by
      by_contra hc
      exact h ⟨hx, by omega⟩
    rw [if_pos ((fX_eq_one _).mpr hx), xoffOf_eq, guardedRead16_eq_some hl]
    refine ⟨_, rfl, .inl ⟨hx, ?_⟩⟩
    rw [rd16_toNat_eq_number16, wordCount, extensionOffset]
    omega
  · rw [if_neg (fun hc => hx ((fX_eq_one _).mp hc)), xoffOf_eq]
    exact ⟨_, rfl, .inr ⟨hx, rfl⟩⟩

/-- A byte sequence declares one header length. -/
theorem DeclaresHeader.unique {rd : Nat → Byte} {h k : Nat} (hh : DeclaresHeader rd h) (hk : DeclaresHeader rd k) : h = k := by
  rcases hh with ⟨hx, rfl⟩ | ⟨hx, rfl⟩ <;> rcases hk with ⟨hy, rfl⟩ | ⟨hy, rfl⟩
  · rfl
  · exact absurd hx hy
  · exact absurd hy hx
  · rfl

/-- The largest header a byte sequence can declare (00_scope.md R6). -/
theorem DeclaresHeader.le {rd : Nat → Byte} {h : Nat} (hh : DeclaresHeader rd h) : h ≤ 262216 := by
  have h1 := csrcCount_le rd
  have h2 := number16_lt rd (extensionOffset rd + 2)
  unfold DeclaresHeader wordCount at hh
  rcases hh with ⟨_, rfl⟩ | ⟨_, rfl⟩ <;> omega

theorem DeclaresHeader.ge {rd : Nat → Byte} {h : Nat} (hh : DeclaresHeader rd h) : extensionOffset rd ≤ h := by
  unfold extensionOffset
  rcases hh with ⟨_, rfl⟩ | ⟨_, rfl⟩ <;> omega

/-- `headerLength` reads byte 0 and, when the extension flag is 1, the two word-count bytes. -/
theorem headerLength_congr {rd rd' : Nat → Byte} {len : Nat} (h0 : rd' 0 = rd 0)
    (hx : hasExtension rd → extensionOffset rd + 4 ≤ len →
      rd' (extensionOffset rd + 2) = rd (extensionOffset rd + 2) ∧ rd' (extensionOffset rd + 3) = rd (extensionOffset rd + 3)) :
    headerLength rd' len = headerLength rd len := by
  unfold headerLength
  rw [h0]
  split
  · rename_i hf
    have hf' : hasExtension rd := (fX_eq_one _).mp hf
    rw [xoffOf_eq]
    by_cases hl : extensionOffset rd + 4 ≤ len
    · obtain ⟨h2, h3⟩ := hx hf' hl
      have e : rd16 rd' (extensionOffset rd + 2) = rd16 rd (extensionOffset rd + 2) := by
        simp only [rd16, h2]
        rw [show extensionOffset rd + 2 + 1 = extensionOffset rd + 3 from rfl, h3]
      rw [guardedRead16_eq_some (by omega), guardedRead16_eq_some (by omega), e]
    · rw [guardedRead16_eq_none (by omega), guardedRead16_eq_none (by omega)]
  · rfl

/-! ## The padding arithmetic (43_extension.md R170) -/

theorem pad_lt (d : Nat) : pad d < 4 := by unfold pad; omega

theorem add_pad (d : Nat) : d + pad d = 4 * ceil4 d := by unfold pad ceil4; omega

@[simp] theorem extensionBlock_length (p : Half) (data : List Byte) :
    (extensionBlock p data).length = 4 + 4 * ceil4 data.length := by
  have := add_pad data.length
  simp [extensionBlock]
  omega

end Sys2Proof.Machine
end

