-- ==== Sys2Proof/Laws/Exec.lean ====
section
/-! SUPPORT. What any command can do, said once: the inversion lemma `exec_effect`, and the consequences that hold of every
command. Invariants and whole-machine rules are case analyses over `Effect`, not over the 33 meanings. -/
namespace Sys2Proof.Machine

/-- The states a command can lead to from `s`. -/
inductive Effect (s : State) : State → Prop
  /-- A recoverable failure, or `FAULTED`: a response and nothing else. -/
  | fails (st : Status) (hok : st ≠ .ok) (hfb : st ≠ .faultBounds) : Effect s (s.fail st)
  /-- Fault entry. -/
  | faults (ready : Ready s) : Effect s s.raiseBounds
  /-- A read: a response and nothing else. -/
  | reads (ready : Ready s) (v : Word) (d : List Byte) : Effect s (s.respond .ok v d)
  /-- A write of consecutive bytes, in the fixed header or inside `LEN`. -/
  | writes (ready : Ready s) (a : Nat) (bs : List Byte) (inside : a + bs.length ≤ 12 ∨ a + bs.length ≤ s.len.toNat) :
      Effect s (s.store a bs).done
  /-- `WRCSRC`: byte 0 and the list. -/
  | writesList (ready : Ready s) (b : Byte) (entries : List Word) (inside : 12 + 4 * entries.length ≤ s.len.toNat) :
      Effect s ((s.store 0 [b]).store 12 (entriesToBytes entries)).done
  /-- `ALLOC` or `LOAD` accepted: a packet of `len` bytes `bs`. -/
  | creates (hf : s.fault = false) (hv : s.valid = false) (bs : List Byte) (len : Word) (k : Nat)
      (hge : 12 ≤ bs.length) (hle : bs.length ≤ s.bufCap) (hlen : bs.length < 4294967296 → len.toNat = bs.length) :
      Effect s { s.store 0 bs with len := len, valid := true, allocs := k }.done
  /-- `FREE`. -/
  | releases (ready : Ready s) : Effect s { s with valid := false, len := 0#32 }.done

/-- From the body of a command that needs a packet to the whole command. -/
theorem effect_withPacket {s body : State} (h : Ready s → Effect s body) : Effect s (withPacket s body) := by
  rcases withPacket_cases s body with ⟨_, e⟩ | ⟨_, _, e⟩ | ⟨hr, e⟩ <;> rw [e]
  · exact .fails _ (by decide) (by decide)
  · exact .fails _ (by decide) (by decide)
  · exact h hr

/-- From the body of a command that creates a packet to the whole command. -/
theorem effect_withoutPacket {s body : State} (h : s.fault = false → s.valid = false → Effect s body) :
    Effect s (withoutPacket s body) := by
  rcases withoutPacket_cases s body with ⟨_, e⟩ | ⟨_, e⟩ | ⟨hf, hv, e⟩ <;> rw [e]
  · exact .fails _ (by decide) (by decide)
  · exact .fails _ (by decide) (by decide)
  · exact h hf hv

/-- A getter of a fixed field. -/
theorem effect_value {s : State} (v : Word) : Effect s (withPacket s (s.value v)) :=
  effect_withPacket (fun hr => .reads hr v [])

/-- A setter of a fixed field. -/
theorem effect_fixedWrite {s : State} (a : Nat) (bs : List Byte) (h : a + bs.length ≤ 12) :
    Effect s (withPacket s (s.store a bs).done) :=
  effect_withPacket (fun hr => .writes hr a bs (.inl h))

@[simp] theorem drawnBytes_length (k n : Nat) : (drawnBytes k n).length = n := by simp [drawnBytes]

theorem illegalCommand_effect (s : State) : Effect s (illegalCommand s) := by
  unfold illegalCommand
  split
  · exact .fails _ (by decide) (by decide)
  · exact .fails _ (by decide) (by decide)

theorem rdcsrc_effect (s : State) : ∃ t, exec .rdcsrc s = .next t ∧ Effect s t := by
  refine ⟨_, rfl, effect_withPacket (fun hr => ?_)⟩
  split
  · exact .faults hr
  · exact .reads hr _ _

theorem wrcsrc_effect (entries : List Word) (s : State) : ∃ t, exec (.wrcsrc entries) s = .next t ∧ Effect s t := by
  refine ⟨_, rfl, ?_⟩
  split
  · exact illegalCommand_effect s
  · refine effect_withPacket (fun hr => ?_)
    split
    · rename_i hg
      exact .writesList hr _ entries (State.guard_eq_true.mp hg)
    · exact .faults hr

theorem hlen_effect (s : State) : ∃ t, exec .hlen s = .next t ∧ Effect s t := by
  refine ⟨_, rfl, effect_withPacket (fun hr => ?_)⟩
  split
  · exact .faults hr
  · exact .reads hr _ _

theorem plen_effect (s : State) : ∃ t, exec .plen s = .next t ∧ Effect s t := by
  refine ⟨_, rfl, effect_withPacket (fun hr => ?_)⟩
  split
  · exact .faults hr
  · exact .reads hr _ _

theorem pview_effect (s : State) : ∃ t, exec .pview s = .next t ∧ Effect s t := by
  refine ⟨_, rfl, effect_withPacket (fun hr => ?_)⟩
  split
  · exact .faults hr
  · split
    · exact .faults hr
    · split
      · exact .faults hr
      · exact .reads hr _ _

theorem xprof_effect (s : State) : ∃ t, exec .xprof s = .next t ∧ Effect s t := by
  refine ⟨_, rfl, effect_withPacket (fun hr => ?_)⟩
  split
  · split
    · exact .faults hr
    · exact .reads hr _ _
  · exact .reads hr _ _

theorem xview_effect (s : State) : ∃ t, exec .xview s = .next t ∧ Effect s t := by
  refine ⟨_, rfl, effect_withPacket (fun hr => ?_)⟩
  split
  · split
    · exact .faults hr
    · split
      · exact .faults hr
      · exact .reads hr _ _
  · exact .reads hr _ _

theorem xput_effect (p : Half) (data : List Byte) (s : State) : ∃ t, exec (.xput p data) s = .next t ∧ Effect s t := by
  refine ⟨_, rfl, effect_withPacket (fun hr => ?_)⟩
  split
  · exact .fails _ (by decide) (by decide)
  · exact .writes hr _ _ (.inr (by rw [extensionBlock_length]; omega))

theorem ser_effect (s : State) : ∃ t, exec .ser s = .next t ∧ Effect s t := by
  refine ⟨_, rfl, effect_withPacket (fun hr => ?_)⟩
  split
  · exact .faults hr
  · exact .reads hr _ _

theorem alloc_effect (size : Word) (s : State) : ∃ t, exec (.alloc size) s = .next t ∧ Effect s t := by
  refine ⟨_, rfl, effect_withoutPacket (fun hf hv => ?_)⟩
  split
  · exact .fails _ (by decide) (by decide)
  · exact .creates hf hv _ _ _ (by rw [drawnBytes_length]; omega) (by rw [drawnBytes_length]; omega)
      (fun _ => by rw [drawnBytes_length])

theorem load_effect (bytes : List Byte) (s : State) : ∃ t, exec (.load bytes) s = .next t ∧ Effect s t := by
  refine ⟨_, rfl, effect_withoutPacket (fun hf hv => ?_)⟩
  split
  · exact .fails _ (by decide) (by decide)
  · split
    · exact .fails _ (by decide) (by decide)
    · split
      · exact .fails _ (by decide) (by decide)
      · split
        · exact .fails _ (by decide) (by decide)
        · exact .creates hf hv bytes _ _ (by omega) (by omega)
            (fun h => by rw [BitVec.toNat_ofNat]; exact Nat.mod_eq_of_lt h)

/-- EVERY COMMAND ANSWERS A NEXT STATE, and this is all it can do. -/
theorem exec_effect (i : Instr) (s : State) : ∃ t, exec i s = .next t ∧ Effect s t := by
  cases i with
  | alloc size => exact alloc_effect size s
  | load bytes => exact load_effect bytes s
  | ser => exact ser_effect s
  | free => exact ⟨_, rfl, effect_withPacket (fun hr => .releases hr)⟩
  | rdcsrc => exact rdcsrc_effect s
  | wrcsrc entries => exact wrcsrc_effect entries s
  | hlen => exact hlen_effect s
  | plen => exact plen_effect s
  | pview => exact pview_effect s
  | xprof => exact xprof_effect s
  | xview => exact xview_effect s
  | xput p d => exact xput_effect p d s
  | rdv | rdp | rdx | rdcc | rdm | rdpt | rdseq | rdts | rdssrc => exact ⟨_, rfl, effect_value _⟩
  | wrv v => exact ⟨_, rfl, effect_fixedWrite 0 [_] (by simp)⟩
  | wrcc v => exact ⟨_, rfl, effect_fixedWrite 0 [_] (by simp)⟩
  | wrpt v => exact ⟨_, rfl, effect_fixedWrite 1 [_] (by simp)⟩
  | setp | clrp | setx | clrx => exact ⟨_, rfl, effect_fixedWrite 0 [_] (by simp)⟩
  | setm | clrm => exact ⟨_, rfl, effect_fixedWrite 1 [_] (by simp)⟩
  | wrseq v => exact ⟨_, rfl, effect_fixedWrite 2 (be16 v) (by simp)⟩
  | wrts v => exact ⟨_, rfl, effect_fixedWrite 4 (be32 v) (by simp)⟩
  | wrssrc v => exact ⟨_, rfl, effect_fixedWrite 8 (be32 v) (by simp)⟩

/-- The same, of a next state already named. -/
theorem effect_of_exec {i : Instr} {s t : State} (h : exec i s = .next t) : Effect s t := by
  obtain ⟨u, hu, he⟩ := exec_effect i s
  rw [hu] at h
  cases h
  exact he

/-- A step takes one event: it is idle, a reset, a command executed, or an illegal word answered. -/
theorem step_cases {s t : State} (h : step s = .next t) :
    (s.port = [] ∧ t = s) ∨
    (∃ rest, s.port = .reset :: rest ∧ t = { s with port := rest }.resetEvent) ∨
    (∃ w din rest i, s.port = .command w din :: rest ∧ decodeCommand w din = .ok i ∧ exec i { s with port := rest } = .next t) ∨
    (∃ w din rest, s.port = .command w din :: rest ∧ t = illegalCommand { s with port := rest }) := by
  unfold step at h
  split at h
  · rename_i hp
    cases h
    exact .inl ⟨hp, rfl⟩
  · rename_i rest hp
    cases h
    exact .inr (.inl ⟨rest, hp, rfl⟩)
  · rename_i w din rest hp
    unfold runCommand at h
    split at h
    · rename_i i hd
      exact .inr (.inr (.inl ⟨w, din, rest, i, hp, hd, h⟩))
    · unfold rejectCommand at h
      split at h
      all_goals first | (cases h; exact .inr (.inr (.inr ⟨w, din, rest, hp, rfl⟩))) | cases h

end Sys2Proof.Machine
end

