-- ==== Sys2Proof/Laws/PerInstr.lean ====
section
/-! SUPPORT. Statements made per instruction. `EncodeLegal`: the command word of a well-formed command is legal, selects the
command's own row, and fixes the length of its `DIN`. -/
namespace Sys2Proof.Laws.EncodeLegal

/-- The encoded word of a well-formed command is legal, its row is the command's, and its `DIN` has the length it fixes. -/
def Statement (i : Instr) : Prop :=
  i.wellFormed = true → decodeWord (encodeWord i) = .ok i.op ∧ i.din.length = dinBytes (encodeWord i)

/-- From the operand's range to the statement. -/
theorem of_fields {i : Instr} (ha : i.op.usesA16 = false → i.a16 = 0#16) (hv : i.a32.toNat < 2 ^ i.op.a32Bits)
    (hd : decodeWord (encodeWord i) = .ok i.op → i.din.length = dinBytes (encodeWord i)) :
    decodeWord (encodeWord i) = .ok i.op ∧ i.din.length = dinBytes (encodeWord i) :=
  have h : decodeWord (encodeWord i) = .ok i.op := decodeWord_ofFields i.op i.a16 i.a32 ha hv
  ⟨h, hd h⟩

/-- The `A32` of an encoded word. -/
theorem a32_encodeWord (i : Instr) : (encodeWord i).a32 = i.a32 := CmdWord.a32_ofFields _ _ _ _

theorem alloc (size : Word) : Statement (.alloc size) := fun _ =>
  of_fields (fun _ => rfl) (BitVec.isLt _) (fun h => by unfold dinBytes; rw [h]; rfl)

theorem load (bytes : List Byte) : Statement (.load bytes) := by
  intro h
  have hl : bytes.length < 2 ^ 32 := by simpa [Instr.wellFormed] using h
  refine of_fields (fun _ => rfl) (by simp only [Instr.a32, Instr.op, Op.a32Bits, BitVec.toNat_ofNat]; omega) (fun h => ?_)
  unfold dinBytes
  rw [h, a32_encodeWord]
  simp only [Instr.din, Instr.op, Instr.a32, BitVec.toNat_ofNat]
  omega

theorem ser : Statement .ser := fun _ =>
  of_fields (fun _ => rfl) (by decide) (fun h => by unfold dinBytes; rw [h]; rfl)

theorem free : Statement .free := fun _ =>
  of_fields (fun _ => rfl) (by decide) (fun h => by unfold dinBytes; rw [h]; rfl)

theorem rdv : Statement .rdv := fun _ =>
  of_fields (fun _ => rfl) (by decide) (fun h => by unfold dinBytes; rw [h]; rfl)

theorem rdp : Statement .rdp := fun _ =>
  of_fields (fun _ => rfl) (by decide) (fun h => by unfold dinBytes; rw [h]; rfl)

theorem rdx : Statement .rdx := fun _ =>
  of_fields (fun _ => rfl) (by decide) (fun h => by unfold dinBytes; rw [h]; rfl)

theorem rdcc : Statement .rdcc := fun _ =>
  of_fields (fun _ => rfl) (by decide) (fun h => by unfold dinBytes; rw [h]; rfl)

theorem rdm : Statement .rdm := fun _ =>
  of_fields (fun _ => rfl) (by decide) (fun h => by unfold dinBytes; rw [h]; rfl)

theorem rdpt : Statement .rdpt := fun _ =>
  of_fields (fun _ => rfl) (by decide) (fun h => by unfold dinBytes; rw [h]; rfl)

theorem rdseq : Statement .rdseq := fun _ =>
  of_fields (fun _ => rfl) (by decide) (fun h => by unfold dinBytes; rw [h]; rfl)

theorem rdts : Statement .rdts := fun _ =>
  of_fields (fun _ => rfl) (by decide) (fun h => by unfold dinBytes; rw [h]; rfl)

theorem rdssrc : Statement .rdssrc := fun _ =>
  of_fields (fun _ => rfl) (by decide) (fun h => by unfold dinBytes; rw [h]; rfl)

theorem rdcsrc : Statement .rdcsrc := fun _ =>
  of_fields (fun _ => rfl) (by decide) (fun h => by unfold dinBytes; rw [h]; rfl)

theorem wrv (v : BitVec 2) : Statement (.wrv v) := fun _ =>
  of_fields (fun _ => rfl) (by simp only [Instr.a32, Instr.op, Op.a32Bits, BitVec.toNat_setWidth]; have := v.isLt; omega) (fun h => by unfold dinBytes; rw [h]; rfl)

theorem setp : Statement .setp := fun _ =>
  of_fields (fun _ => rfl) (by decide) (fun h => by unfold dinBytes; rw [h]; rfl)

theorem setx : Statement .setx := fun _ =>
  of_fields (fun _ => rfl) (by decide) (fun h => by unfold dinBytes; rw [h]; rfl)

theorem wrcc (v : Word) : Statement (.wrcc v) := fun _ =>
  of_fields (fun _ => rfl) (BitVec.isLt _) (fun h => by unfold dinBytes; rw [h]; rfl)

theorem setm : Statement .setm := fun _ =>
  of_fields (fun _ => rfl) (by decide) (fun h => by unfold dinBytes; rw [h]; rfl)

theorem wrpt (v : BitVec 7) : Statement (.wrpt v) := fun _ =>
  of_fields (fun _ => rfl) (by simp only [Instr.a32, Instr.op, Op.a32Bits, BitVec.toNat_setWidth]; have := v.isLt; omega) (fun h => by unfold dinBytes; rw [h]; rfl)

theorem wrseq (v : Half) : Statement (.wrseq v) := fun _ =>
  of_fields (fun _ => rfl) (by simp only [Instr.a32, Instr.op, Op.a32Bits, BitVec.toNat_setWidth]; have := v.isLt; omega) (fun h => by unfold dinBytes; rw [h]; rfl)

theorem wrts (v : Word) : Statement (.wrts v) := fun _ =>
  of_fields (fun _ => rfl) (BitVec.isLt _) (fun h => by unfold dinBytes; rw [h]; rfl)

theorem wrssrc (v : Word) : Statement (.wrssrc v) := fun _ =>
  of_fields (fun _ => rfl) (BitVec.isLt _) (fun h => by unfold dinBytes; rw [h]; rfl)

theorem wrcsrc (entries : List Word) : Statement (.wrcsrc entries) := by
  intro h
  have hl : entries.length ≤ 15 := by simpa [Instr.wellFormed] using h
  refine of_fields (fun _ => rfl) (by simp only [Instr.a32, Instr.op, Op.a32Bits, BitVec.toNat_ofNat]; omega) (fun h => ?_)
  unfold dinBytes
  rw [h, a32_encodeWord]
  simp only [Instr.din, Instr.op, Instr.a32, BitVec.toNat_ofNat, Machine.entriesToBytes_length]
  omega

theorem clrp : Statement .clrp := fun _ =>
  of_fields (fun _ => rfl) (by decide) (fun h => by unfold dinBytes; rw [h]; rfl)

theorem clrx : Statement .clrx := fun _ =>
  of_fields (fun _ => rfl) (by decide) (fun h => by unfold dinBytes; rw [h]; rfl)

theorem clrm : Statement .clrm := fun _ =>
  of_fields (fun _ => rfl) (by decide) (fun h => by unfold dinBytes; rw [h]; rfl)

theorem hlen : Statement .hlen := fun _ =>
  of_fields (fun _ => rfl) (by decide) (fun h => by unfold dinBytes; rw [h]; rfl)

theorem plen : Statement .plen := fun _ =>
  of_fields (fun _ => rfl) (by decide) (fun h => by unfold dinBytes; rw [h]; rfl)

theorem pview : Statement .pview := fun _ =>
  of_fields (fun _ => rfl) (by decide) (fun h => by unfold dinBytes; rw [h]; rfl)

theorem xprof : Statement .xprof := fun _ =>
  of_fields (fun _ => rfl) (by decide) (fun h => by unfold dinBytes; rw [h]; rfl)

theorem xview : Statement .xview := fun _ =>
  of_fields (fun _ => rfl) (by decide) (fun h => by unfold dinBytes; rw [h]; rfl)

theorem xput (profile : Half) (data : List Byte) : Statement (.xput profile data) := by
  intro h
  have hl : data.length < 2 ^ 32 := by simpa [Instr.wellFormed] using h
  refine of_fields (fun hu => nomatch hu) (by simp only [Instr.a32, Instr.op, Op.a32Bits, BitVec.toNat_ofNat]; omega) (fun h => ?_)
  unfold dinBytes
  rw [h, a32_encodeWord]
  simp only [Instr.din, Instr.op, Instr.a32, BitVec.toNat_ofNat]
  omega

end Sys2Proof.Laws.EncodeLegal
end

