-- ==== Sys2Proof/Tests/Slice0.lean ====
section
/-! SUPPORT. The model's own tests: words written out from the spec's encodings, one-step results from the tables of
spec/95_test_vectors.md and the examples of the rules, and for every statement with hypotheses a state and operands that meet
them all together (`witness_…`). -/
namespace Sys2Proof.Tests
open Sys2Proof Sys2Proof.Machine

/-! ## Helpers -/

/-- A packet of the given bytes. -/
def packet (bs : List Byte) : State :=
  { State.reset with buf := cellsAt 0 bs, len := BitVec.ofNat 32 bs.length, valid := true }

/-- The start state of the rows of 95_test_vectors.md 2.1. -/
def header (b0 b1 : Byte) : State :=
  packet ([b0, b1, 0xAA#8, 0xBB#8, 0xCC#8, 0xDD#8, 0xEE#8, 0xFF#8, 0x11#8, 0x22#8, 0x33#8, 0x44#8] ++ List.replicate 64 0x00#8)

/-- A packet of byte 0, eleven zero bytes and `rest`. -/
def packet0 (b0 : Byte) (rest : List Byte) : State := packet (b0 :: List.replicate 11 0x00#8 ++ rest)

/-- A block whose latch is set. -/
def latched : State := { packet0 0x80#8 [] with fault := true, fcause := 0x8#4 }

/-- The response of a step. -/
def answer : Host.Outcome State Fault Refusal → Option Response
  | .next t => t.replies.getLast?
  | .fault _ => none
  | .refused _ => none

/-- The first `n` bytes after a step. -/
def bytesAfter (n : Nat) : Host.Outcome State Fault Refusal → List Byte
  | .next t => t.bytes 0 n
  | .fault _ => []
  | .refused _ => []

/-- `LEN`, `VALID`, `FAULT`, `FCAUSE` after a step. -/
def elementsAfter : Host.Outcome State Fault Refusal → Option (Word × Bool × Bool × BitVec 4)
  | .next t => some (t.len, t.valid, t.fault, t.fcause)
  | .fault _ => none
  | .refused _ => none

/-- The 12 bytes P12 of 95_test_vectors.md 2.5. -/
def p12 : List Byte := [0x80#8, 0x08#8, 0x04#8, 0xD2#8, 0x00#8, 0x00#8, 0x16#8, 0x2E#8, 0x00#8, 0xBC#8, 0x61#8, 0x4E#8]

/-- The 29 bytes PK of 95_test_vectors.md P2. -/
def pk : List Byte :=
  [0x91#8, 0x60#8, 0x12#8, 0x34#8, 0xDE#8, 0xAD#8, 0xBE#8, 0xEF#8, 0x01#8, 0x02#8, 0x03#8, 0x04#8] ++
  [0xCA#8, 0xFE#8, 0xBA#8, 0xBE#8] ++ [0xBE#8, 0xDE#8, 0x00#8, 0x01#8, 0x10#8, 0xAA#8, 0xBB#8, 0x00#8] ++
  [0x48#8, 0x65#8, 0x6C#8, 0x6C#8, 0x6F#8]

/-! ## WellFormed: ill-formed terms are refused -/

/-- A list of 16 entries cannot be expressed (41_csrc.md R151). -/
theorem test_wellFormed_refuses_16_entries : Instr.wellFormed (.wrcsrc (List.replicate 16 0#32)) = false := by decide

theorem test_wellFormed_accepts_15_entries : Instr.wellFormed (.wrcsrc (List.replicate 15 0#32)) = true := by decide

/-- A length of 2^32 does not fit `A32` (30_encoding.md R85). -/
theorem test_wellFormed_refuses_long_load : Instr.wellFormed (.load (List.replicate 4294967296 0x00#8)) = false := by
  simp only [Instr.wellFormed, List.length_replicate]; decide

theorem test_wellFormed_refuses_long_xput : Instr.wellFormed (.xput 0#16 (List.replicate 4294967296 0x00#8)) = false := by
  simp only [Instr.wellFormed, List.length_replicate]; decide

/-! ## Decoding: words written out from 30_encoding.md R82, R84, R87 (`OPC RSV A16 A32`) -/

theorem test_decode_lifecycle :
    decodeCommand (0b00000001#8 ++ 0b00000000#8 ++ 0x0000#16 ++ 0x00000034#32) [] = .ok (.alloc 52#32) ∧
    decodeCommand 0x0200000000000002#64 [0xAB#8, 0xCD#8] = .ok (.load [0xAB#8, 0xCD#8]) ∧
    decodeCommand 0x0300000000000000#64 [] = .ok .ser ∧
    decodeCommand 0x0400000000000000#64 [] = .ok .free := by decide

theorem test_decode_reads :
    decodeCommand (0b00010000#8 ++ 0b00000000#8 ++ 0x0000#16 ++ 0x00000000#32) [] = .ok .rdv ∧
    decodeCommand 0x1100000000000000#64 [] = .ok .rdp ∧
    decodeCommand 0x1200000000000000#64 [] = .ok .rdx ∧
    decodeCommand 0x1300000000000000#64 [] = .ok .rdcc ∧
    decodeCommand 0x1400000000000000#64 [] = .ok .rdm ∧
    decodeCommand 0x1500000000000000#64 [] = .ok .rdpt ∧
    decodeCommand 0x1600000000000000#64 [] = .ok .rdseq ∧
    decodeCommand 0x1700000000000000#64 [] = .ok .rdts ∧
    decodeCommand 0x1800000000000000#64 [] = .ok .rdssrc := by decide

theorem test_decode_writes :
    decodeCommand (0b00100000#8 ++ 0b00000000#8 ++ 0x0000#16 ++ 0b00000000000000000000000000000011#32) [] = .ok (.wrv 3#2) ∧
    decodeCommand 0x2100000000000000#64 [] = .ok .setp ∧
    decodeCommand 0x2200000000000000#64 [] = .ok .setx ∧
    decodeCommand 0x2300000012345678#64 [] = .ok (.wrcc 0x12345678#32) ∧
    decodeCommand 0x2400000000000000#64 [] = .ok .setm ∧
    decodeCommand 0x2500000000000060#64 [] = .ok (.wrpt 96#7) ∧
    decodeCommand 0x260000000000FFFE#64 [] = .ok (.wrseq 65534#16) ∧
    decodeCommand 0x2700000001020304#64 [] = .ok (.wrts 0x01020304#32) ∧
    decodeCommand 0x2800000080000001#64 [] = .ok (.wrssrc 0x80000001#32) := by decide

theorem test_decode_clears :
    decodeCommand (0b00110001#8 ++ 0b00000000#8 ++ 0x0000#16 ++ 0x00000000#32) [] = .ok .clrp ∧
    decodeCommand 0x3200000000000000#64 [] = .ok .clrx ∧
    decodeCommand 0x3400000000000000#64 [] = .ok .clrm := by decide

/-- 95_test_vectors.md 2.2, rows 1 and 3: entry bytes most significant first. -/
theorem test_decode_csrc :
    decodeCommand (0b00011001#8 ++ 0b00000000#8 ++ 0x0000#16 ++ 0x00000000#32) [] = .ok .rdcsrc ∧
    decodeCommand 0x2900000000000002#64 [0xDE#8, 0xAD#8, 0xBE#8, 0xEF#8, 0x00#8, 0x00#8, 0x00#8, 0x01#8] =
      .ok (.wrcsrc [0xDEADBEEF#32, 1#32]) := by decide

theorem test_decode_derived :
    decodeCommand (0b01000000#8 ++ 0b00000000#8 ++ 0x0000#16 ++ 0x00000000#32) [] = .ok .hlen ∧
    decodeCommand 0x4100000000000000#64 [] = .ok .plen ∧
    decodeCommand 0x4200000000000000#64 [] = .ok .pview := by decide

/-- 95_test_vectors.md P1, step 12. -/
theorem test_decode_extension :
    decodeCommand (0b01010000#8 ++ 0b00000000#8 ++ 0x0000#16 ++ 0x00000000#32) [] = .ok .xprof ∧
    decodeCommand 0x5100000000000000#64 [] = .ok .xview ∧
    decodeCommand 0x520011D700000007#64 [1#8, 2#8, 3#8, 4#8, 5#8, 6#8, 7#8] =
      .ok (.xput 4567#16 [1#8, 2#8, 3#8, 4#8, 5#8, 6#8, 7#8]) := by decide

/-- 95_test_vectors.md 2.6: the illegal words, each with its reason. -/
theorem test_decode_illegal :
    decodeWord 0x2000000000000004#64 = .error .operandRange ∧
    decodeWord 0x2500000000000080#64 = .error .operandRange ∧
    decodeWord 0x2600000000010000#64 = .error .operandRange ∧
    decodeWord 0x2900000000000010#64 = .error .operandRange ∧
    decodeWord 0x1000000000000001#64 = .error .nonzeroA32 ∧
    decodeWord 0x1001000000000000#64 = .error .nonzeroRSV ∧
    decodeWord 0x2100000100000000#64 = .error .nonzeroA16 ∧
    decodeWord 0x0000000000000000#64 = .error .unknownOpcode ∧
    decodeWord 0x3000000000000000#64 = .error .unknownOpcode ∧
    decodeWord 0x3300000000000000#64 = .error .unknownOpcode ∧
    decodeWord 0xFF00000000000000#64 = .error .unknownOpcode := by decide

/-- A `DIN` of another length than R85 gives is no command. -/
theorem test_decode_dinLength :
    decodeCommand 0x2900000000000002#64 [0x00#8] = .error .dinLength ∧
    decodeCommand 0x1000000000000000#64 [0x00#8] = .error .dinLength := by decide

/-- The words of 95_test_vectors.md P1 steps 9 and 11, and of 2.4. -/
theorem test_encode :
    encode (.wrts 5678#32) = (0x270000000000162E#64, []) ∧
    encode (.wrcsrc [12#32, 13#32]) =
      (0x2900000000000002#64, [0x00#8, 0x00#8, 0x00#8, 0x0C#8, 0x00#8, 0x00#8, 0x00#8, 0x0D#8]) ∧
    encode (.xput 0x1234#16 [0xA1#8]) = (0x5200123400000001#64, [0xA1#8]) := by decide

/-- The entry point of the host's checks: the word alone, and a word whose `DIN` bytes are above it or zero. -/
theorem test_decodeTableWord :
    decodeTableWord 64 0x2000000000000002 = some (.wrv 2#2) ∧
    decodeTableWord 64 0x5200123400000002 = some (.xput 0x1234#16 [0x00#8, 0x00#8]) ∧
    decodeTableWord 80 0xBBAA5200123400000002 = some (.xput 0x1234#16 [0xAA#8, 0xBB#8]) ∧
    decodeTableWord 64 0x2000000000000004 = none := by decide

/-- The examples of 30_encoding.md R92, and a pseudo-command of R93 with and without a legal operand. -/
theorem test_assemble :
    assemble "ALLOC 52\nWRV 3\nWRCSRC [12 13]   ; n = 2\nXPUT 4567, [01 02 03 04 05 06 07]\nRDSEQ\nPUTP 0" =
      some [.alloc 52#32, .wrv 3#2, .wrcsrc [12#32, 13#32], .xput 4567#16 [1#8, 2#8, 3#8, 4#8, 5#8, 6#8, 7#8], .rdseq, .clrp] ∧
    assemble "PUTX 2" = none := by decide

/-! ## Fixed-header fields: 95_test_vectors.md 2.1 -/

theorem test_rdv : answer (exec .rdv (header 0xA5#8 0x00#8)) = some ⟨.ok, 2#32, []⟩ := by decide
theorem test_rdp : answer (exec .rdp (header 0xA5#8 0x00#8)) = some ⟨.ok, 1#32, []⟩ := by decide
theorem test_rdx : answer (exec .rdx (header 0x5A#8 0x00#8)) = some ⟨.ok, 1#32, []⟩ := by decide
theorem test_rdcc : answer (exec .rdcc (header 0x5A#8 0x00#8)) = some ⟨.ok, 10#32, []⟩ := by decide
theorem test_rdm : answer (exec .rdm (header 0x00#8 0xE0#8)) = some ⟨.ok, 1#32, []⟩ := by decide
theorem test_rdpt : answer (exec .rdpt (header 0x00#8 0xE0#8)) = some ⟨.ok, 96#32, []⟩ := by decide
theorem test_rdseq : answer (exec .rdseq (header 0x00#8 0x00#8)) = some ⟨.ok, 43707#32, []⟩ := by decide
theorem test_rdts : answer (exec .rdts (header 0x00#8 0x00#8)) = some ⟨.ok, 3437096703#32, []⟩ := by decide
theorem test_rdssrc : answer (exec .rdssrc (header 0x00#8 0x00#8)) = some ⟨.ok, 287454020#32, []⟩ := by decide

theorem test_wrv : (bytesAfter 2 (exec (.wrv 2#2) (header 0x3F#8 0x00#8))) = [0xBF#8, 0x00#8] := by decide
theorem test_setp : (bytesAfter 2 (exec .setp (header 0xDF#8 0x00#8))) = [0xFF#8, 0x00#8] := by decide
theorem test_clrp : (bytesAfter 2 (exec .clrp (header 0xFF#8 0x00#8))) = [0xDF#8, 0x00#8] := by decide
theorem test_setx : (bytesAfter 2 (exec .setx (header 0xE0#8 0x00#8))) = [0xF0#8, 0x00#8] := by decide
theorem test_clrx : (bytesAfter 2 (exec .clrx (header 0xFF#8 0x00#8))) = [0xEF#8, 0x00#8] := by decide
theorem test_wrcc : (bytesAfter 2 (exec (.wrcc 10#32) (header 0x85#8 0x00#8))) = [0x8A#8, 0x00#8] := by decide
theorem test_wrcc_masked : (bytesAfter 2 (exec (.wrcc 0x12345678#32) (header 0x85#8 0x00#8))) = [0x88#8, 0x00#8] := by decide
theorem test_setm : (bytesAfter 2 (exec .setm (header 0x00#8 0x7F#8))) = [0x00#8, 0xFF#8] := by decide
theorem test_clrm : (bytesAfter 2 (exec .clrm (header 0x00#8 0xFF#8))) = [0x00#8, 0x7F#8] := by decide
theorem test_wrpt : (bytesAfter 2 (exec (.wrpt 8#7) (header 0x00#8 0x80#8))) = [0x00#8, 0x88#8] := by decide
theorem test_wrseq : bytesAfter 5 (exec (.wrseq 0x0102#16) (header 0x00#8 0x00#8)) =
    [0x00#8, 0x00#8, 0x01#8, 0x02#8, 0xCC#8] := by decide
theorem test_wrts : bytesAfter 9 (exec (.wrts 0x01020304#32) (header 0x00#8 0x00#8)) =
    [0x00#8, 0x00#8, 0xAA#8, 0xBB#8, 0x01#8, 0x02#8, 0x03#8, 0x04#8, 0x11#8] := by decide
theorem test_wrssrc : bytesAfter 13 (exec (.wrssrc 0x80000001#32) (header 0x00#8 0x00#8)) =
    [0x00#8, 0x00#8, 0xAA#8, 0xBB#8, 0xCC#8, 0xDD#8, 0xEE#8, 0xFF#8, 0x80#8, 0x00#8, 0x00#8, 0x01#8, 0x00#8] := by decide

/-! ## CSRC list: 95_test_vectors.md 2.2 -/

/-- Row 1: the count and the entries. -/
theorem test_wrcsrc :
    (bytesAfter 20 (exec (.wrcsrc [0xDEADBEEF#32, 1#32]) (packet0 0x80#8 (List.replicate 8 0x77#8)))).drop 12 =
      [0xDE#8, 0xAD#8, 0xBE#8, 0xEF#8, 0x00#8, 0x00#8, 0x00#8, 0x01#8] ∧
    (bytesAfter 1 (exec (.wrcsrc [0xDEADBEEF#32, 1#32]) (packet0 0x80#8 (List.replicate 8 0x77#8)))) = [0x82#8] := by decide

/-- Row 6: the list does not fit, nothing is written. -/
theorem test_wrcsrc_bounds :
    answer (exec (.wrcsrc [1#32, 2#32, 3#32]) (packet0 0x80#8 (List.replicate 8 0x77#8))) = some ⟨.faultBounds, 0#32, []⟩ ∧
    bytesAfter 1 (exec (.wrcsrc [1#32, 2#32, 3#32]) (packet0 0x80#8 (List.replicate 8 0x77#8))) = [0x80#8] ∧
    elementsAfter (exec (.wrcsrc [1#32, 2#32, 3#32]) (packet0 0x80#8 (List.replicate 8 0x77#8))) =
      some (20#32, true, true, 0x8#4) := by decide

/-- P2, step 11. -/
theorem test_rdcsrc : answer (exec .rdcsrc (packet pk)) = some ⟨.ok, 1#32, [0xCA#8, 0xFE#8, 0xBA#8, 0xBE#8]⟩ := by decide

/-- Row 7: 12 + 12 > 20. -/
theorem test_rdcsrc_bounds :
    answer (exec .rdcsrc (packet0 0x83#8 (List.replicate 8 0x77#8))) = some ⟨.faultBounds, 0#32, []⟩ := by decide

/-! ## Derived lengths: 95_test_vectors.md P2 and the corner cases of 2.3 -/

theorem test_hlen : answer (exec .hlen (packet pk)) = some ⟨.ok, 24#32, []⟩ := by decide

/-- "`LEN` = 12, `BUF[0]` = 81: not compared with `LEN`"; "`LEN` = 12, `BUF[0]` = 90: word count outside `LEN`". -/
theorem test_hlen_corner :
    answer (exec .hlen (packet0 0x81#8 [])) = some ⟨.ok, 16#32, []⟩ ∧
    answer (exec .hlen (packet0 0x90#8 [])) = some ⟨.faultBounds, 0#32, []⟩ := by decide

theorem test_plen : answer (exec .plen (packet pk)) = some ⟨.ok, 5#32, []⟩ := by decide

theorem test_plen_malformed :
    answer (exec .plen (packet0 0x81#8 [])) = some ⟨.faultBounds, 0#32, []⟩ ∧
    elementsAfter (exec .plen (packet0 0x81#8 [])) = some (12#32, true, true, 0x8#4) := by decide

theorem test_pview : answer (exec .pview (packet pk)) = some ⟨.ok, 5#32, [0x48#8, 0x65#8, 0x6C#8, 0x6C#8, 0x6F#8]⟩ := by decide

theorem test_pview_empty : answer (exec .pview (packet p12)) = some ⟨.ok, 0#32, []⟩ := by decide

/-! ## Extension: 95_test_vectors.md P2 and 2.4 -/

theorem test_xprof : answer (exec .xprof (packet pk)) = some ⟨.ok, 48862#32, []⟩ := by decide

/-- "`LEN` = 13, `BUF[0]` = 90: 12 + 2 > 13", and the flag 0. -/
theorem test_xprof_corner :
    answer (exec .xprof (packet0 0x90#8 [0x00#8])) = some ⟨.faultBounds, 0#32, []⟩ ∧
    answer (exec .xprof (packet0 0x80#8 [0x11#8, 0xD7#8, 0x00#8, 0x02#8])) = some ⟨.ok, 0#32, []⟩ := by decide

theorem test_xview : answer (exec .xview (packet pk)) = some ⟨.ok, 4#32, [0x10#8, 0xAA#8, 0xBB#8, 0x00#8]⟩ := by decide

/-- "`LEN` = 16, `BUF[12..15]` = 00 00 00 01: 16 + 4 > 16", and the flag 0. -/
theorem test_xview_corner :
    answer (exec .xview (packet0 0x90#8 [0x00#8, 0x00#8, 0x00#8, 0x01#8])) = some ⟨.faultBounds, 0#32, []⟩ ∧
    answer (exec .xview (packet0 0x80#8 [0x11#8, 0xD7#8, 0x00#8, 0x02#8])) = some ⟨.ok, 0#32, []⟩ := by decide

/-- Row d = 5 of 2.4: two words, three bytes of padding; the byte after the block stays. -/
theorem test_xput :
    (bytesAfter 25 (exec (.xput 0x1234#16 [0xA1#8, 0xA2#8, 0xA3#8, 0xA4#8, 0xA5#8]) (packet0 0x90#8 (List.replicate 20 0x77#8)))).drop 12 =
      [0x12#8, 0x34#8, 0x00#8, 0x02#8, 0xA1#8, 0xA2#8, 0xA3#8, 0xA4#8, 0xA5#8, 0x00#8, 0x00#8, 0x00#8, 0x77#8] := by decide

/-- "`LEN` = 12, `d` = 0 needs 16 > 12", and "`LEN` = 16, `BUF[0]` = 81: not a fault". -/
theorem test_xput_capacity :
    answer (exec (.xput 7#16 []) (packet0 0x80#8 [])) = some ⟨.errCapacity, 0#32, []⟩ ∧
    answer (exec (.xput 7#16 []) (packet0 0x81#8 (List.replicate 4 0x00#8))) = some ⟨.errCapacity, 0#32, []⟩ := by decide

/-! ## Lifecycle: 95_test_vectors.md 2.5 -/

theorem test_alloc :
    answer (exec (.alloc 12#32) State.reset) = some ⟨.ok, 0#32, []⟩ ∧
    elementsAfter (exec (.alloc 12#32) State.reset) = some (12#32, true, false, 0x0#4) := by decide

theorem test_alloc_size :
    answer (exec (.alloc 11#32) State.reset) = some ⟨.errSize, 0#32, []⟩ ∧
    answer (exec (.alloc 17#32) { State.reset with bufCap := 16 }) = some ⟨.errSize, 0#32, []⟩ ∧
    answer (exec (.alloc 12#32) (packet p12)) = some ⟨.errState, 0#32, []⟩ := by decide

theorem test_load :
    bytesAfter 12 (exec (.load p12) State.reset) = p12 ∧
    elementsAfter (exec (.load p12) State.reset) = some (12#32, true, false, 0x0#4) := by decide

/-- Too short, no room for the word count, `h` = 16 > 12, `h` = 20 > 16, and above `BUF_CAP`. -/
theorem test_load_refused :
    answer (exec (.load (p12.take 11)) State.reset) = some ⟨.errDecode, 0#32, []⟩ ∧
    answer (exec (.load (0x90#8 :: p12.drop 1)) State.reset) = some ⟨.errDecode, 0#32, []⟩ ∧
    answer (exec (.load (0x81#8 :: p12.drop 1)) State.reset) = some ⟨.errDecode, 0#32, []⟩ ∧
    answer (exec (.load (0x90#8 :: p12.drop 1 ++ [0x00#8, 0x00#8, 0x00#8, 0x01#8])) State.reset) = some ⟨.errDecode, 0#32, []⟩ ∧
    answer (exec (.load (p12 ++ List.replicate 5 0x00#8)) { State.reset with bufCap := 16 }) = some ⟨.errSize, 0#32, []⟩ := by
  decide

theorem test_ser : answer (exec .ser (packet p12)) = some ⟨.ok, 12#32, p12⟩ := by decide

theorem test_free :
    answer (exec .free (packet p12)) = some ⟨.ok, 0#32, []⟩ ∧
    elementsAfter (exec .free (packet p12)) = some (0#32, false, false, 0x0#4) := by decide

/-! ## Refusals, priority, the latch: 95_test_vectors.md 2.6 -/

/-- Illegal before `VALID`; `ERR_STATE` for a legal word without a packet. -/
theorem test_step_priority :
    answer (step { State.reset with port := [.command 0x2000000000000004#64 []] }) = some ⟨.errIllegal, 0#32, []⟩ ∧
    answer (step { State.reset with port := [.command 0x2000000000000003#64 []] }) = some ⟨.errState, 0#32, []⟩ := by decide

/-- The latch is tested before everything else, and survives it. -/
theorem test_step_latched :
    answer (step { latched with port := [.command 0x0000000000000000#64 []] }) = some ⟨.faulted, 0#32, []⟩ ∧
    answer (step { latched with port := [.command 0x010000000000000C#64 []] }) = some ⟨.faulted, 0#32, []⟩ ∧
    elementsAfter (step { latched with port := [.command 0x0400000000000000#64 []] }) = some (12#32, true, true, 0x8#4) := by decide

/-- Reset clears the latch and releases the packet, with no response. -/
theorem test_step_reset :
    elementsAfter (step { latched with port := [.reset] }) = some (0#32, false, false, 0x0#4) ∧
    answer (step { latched with port := [.reset] }) = none := by decide

/-- A word placed where `step` takes its next command runs as the first command after reset. -/
theorem test_withFetchWord :
    elementsAfter (step (State.reset.withFetchWord 64 0x010000000000000C)) = some (12#32, true, false, 0x0#4) ∧
    answer (step (State.reset.withFetchWord 64 0x1000000000000000)) = some ⟨.errState, 0#32, []⟩ := by decide

/-! ## Witnesses: the hypotheses of the statements can be met, each clause at a boundary of its range

`NeedsPacket`, `NeedsNoPacket` and `Ready` are the three cases of the prologue: `latched`, `State.reset`, a packet. -/

/-- The hypotheses of `NeedsPacket` and `NeedsNoPacket` (in every statement that says them of a command), and `Ready`. -/
theorem witness_prologue :
    latched.fault = true ∧ (State.reset.fault = false ∧ State.reset.valid = false) ∧
    ((packet p12).fault = false ∧ (packet p12).valid = true) ∧ Ready (packet p12) := by decide

/-- `DecodeOfEncodeIsTheCommand`: the longest list. -/
theorem witness_wellFormed : Instr.wellFormed (.wrcsrc (List.replicate 15 0xFFFFFFFF#32)) = true := by decide

/-- `DecodingSelectsTheOpcodeTableRow`: a word that matches a row, with operand bits at their largest. -/
theorem witness_row : 0x250000000000007F#64 &&& Op.mask .wrpt = Op.pattern .wrpt := by decide

/-- `IllegalWordsAreAnsweredErrIllegal`: a word of each clause, at the end of its range. -/
theorem witness_illegal :
    IllegalWord 0x3000000000000000#64 ∧ IllegalWord 0xFF00000000000000#64 ∧ IllegalWord 0x1001000000000000#64 ∧
    IllegalWord 0x2100000100000000#64 ∧ IllegalWord 0x4200000000000001#64 ∧ IllegalWord 0x2000000000000004#64 ∧
    IllegalWord 0x2500000000000080#64 ∧ IllegalWord 0x2600000000010000#64 ∧ IllegalWord 0x2900000000000010#64 := by
  refine ⟨.inl ?_, .inl ?_, .inr (.inl ?_), .inr (.inr (.inl ?_)), .inr (.inr (.inr (.inl ?_))),
    .inr (.inr (.inr (.inr (.inl ?_)))), .inr (.inr (.inr (.inr (.inr (.inl ?_))))),
    .inr (.inr (.inr (.inr (.inr (.inr (.inl ?_)))))), .inr (.inr (.inr (.inr (.inr (.inr (.inr ?_))))))⟩
  all_goals first | decide | (unfold UnassignedOpcode; decide)

/-- The legal words next to those bounds are not illegal. -/
theorem witness_legal :
    decodeWord 0x2000000000000003#64 = .ok .wrv ∧ decodeWord 0x250000000000007F#64 = .ok .wrpt ∧
    decodeWord 0x260000000000FFFF#64 = .ok .wrseq ∧ decodeWord 0x290000000000000F#64 = .ok .wrcsrc ∧
    decodeWord 0x52FF000000000000#64 = .error .nonzeroRSV := by decide

/-- `IllegalWordsAreAnsweredErrIllegal`, third clause: an illegal word on the port of a block that is not latched. -/
theorem witness_illegal_port :
    ∃ (w : CmdWord) (s : State) (rest : List Event),
      decodeWord w = .error .unknownOpcode ∧ s.fault = false ∧ s.port = .command w [] :: rest :=
  ⟨0x0000000000000000#64, { State.reset with port := [.command 0x0000000000000000#64 [], .reset] }, [.reset], by decide⟩

/-- `StepExecutesTheDecodedCommand`. -/
theorem witness_step :
    ∃ (s : State) (w : CmdWord) (din : List Byte) (rest : List Event) (i : Instr),
      s.port = .command w din :: rest ∧ decodeCommand w din = .ok i :=
  ⟨State.reset.withFetchWord 64 0x5200123400000002, 0x5200123400000002#64, [0x00#8, 0x00#8], [], .xput 0x1234#16 [0x00#8, 0x00#8],
    by decide⟩

/-- `IdleStepAndUnpresentableDin`: both clauses. -/
theorem witness_idle_and_dinLength :
    State.reset.port = [] ∧
    ∃ (s : State) (w : CmdWord) (din : List Byte) (rest : List Event),
      s.port = .command w din :: rest ∧ din.length ≠ dinBytes w :=
  ⟨rfl, { State.reset with port := [.command 0x2900000000000001#64 [0x00#8, 0x00#8, 0x00#8]] }, 0x2900000000000001#64,
    [0x00#8, 0x00#8, 0x00#8], [], by decide⟩

/-- `ResetEventGivesTheResetValues`. -/
theorem witness_reset : ∃ (s : State) (rest : List Event), s.port = .reset :: rest ∧ s.fault = true :=
  ⟨{ latched with port := [.reset] }, [], by decide⟩

/-- `PresentablePortNeverStops`: a command with `DIN`, an illegal word and a reset; both hypotheses of the inner clause. -/
theorem witness_presentable :
    ∃ s : State, (∀ e ∈ s.port, e.presentable = true) ∧ ∃ w din rest, s.port = .command w din :: rest :=
  ⟨{ State.reset with port := [.command 0x2900000000000001#64 [0x00#8, 0x00#8, 0x00#8, 0x07#8], .command 0#64 [], .reset] },
    by decide, 0x2900000000000001#64, [0x00#8, 0x00#8, 0x00#8, 0x07#8], [.command 0#64 [], .reset], rfl⟩

/-- `RunAppliesTheCommandsInOrder`. -/
theorem witness_run : ∀ i ∈ [Instr.alloc 12#32, .wrcsrc (List.replicate 15 0#32), .ser], i.wellFormed = true := by decide

/-- `FailedCommandsChangeNothing` and `FaultEntrySetsOnlyTheLatch`: commands that answer `OK`, a recoverable status,
`FAULT_BOUNDS`, `FAULTED`. -/
theorem witness_responses :
    answer (exec .ser (packet p12)) = some ⟨.ok, 12#32, p12⟩ ∧
    answer (exec .ser State.reset) = some ⟨.errState, 0#32, []⟩ ∧
    answer (exec .plen (packet0 0x81#8 [])) = some ⟨.faultBounds, 0#32, []⟩ ∧
    answer (exec .plen latched) = some ⟨.faulted, 0#32, []⟩ := by decide

/-- `FaultEntrySetsOnlyTheLatch`, first and second clause: the latch goes from clear to set. -/
theorem witness_fault_entry :
    ∃ (i : Instr) (s t : State) (r : Response), exec i s = .next t ∧ s.fault = false ∧ t.fault = true ∧
      t.replies = s.replies ++ [r] ∧ r.st = .faultBounds :=
  ⟨.plen, packet0 0x81#8 [], (packet0 0x81#8 []).raiseBounds, ⟨.faultBounds, 0#32, []⟩, rfl, rfl, rfl, rfl, rfl⟩

/-- The same, third clause: a recoverable failure. -/
theorem witness_recoverable :
    ∃ (i : Instr) (s t : State) (r : Response), exec i s = .next t ∧ t.replies = s.replies ++ [r] ∧ r.st ≠ .ok ∧ r.st ≠ .faultBounds :=
  ⟨.ser, State.reset, State.reset.fail .errState, ⟨.errState, 0#32, []⟩, rfl, rfl, by decide, by decide⟩

/-- The same, fourth clause: the latch goes from set to clear. -/
theorem witness_latch_cleared : ∃ s t : State, step s = .next t ∧ s.fault = true ∧ t.fault = false :=
  ⟨{ latched with port := [.reset] }, latched.resetEvent, rfl, rfl, rfl⟩

/-- `LatchedFaultAnswersFaulted`: a legal word with `DIN`, and an illegal word. -/
theorem witness_latched :
    latched.fault = true ∧ [0x00#8, 0x01#8].length = dinBytes 0x0200000000000002#64 ∧
    ([] : List Byte).length = dinBytes 0x0000000000000000#64 := by decide

/-- `CommandsThatDoNotSuitValidAnswerErrState`: both kinds of command. -/
theorem witness_errState :
    (Instr.wellFormed .free = true ∧ State.reset.fault = false ∧ State.reset.valid = createsPacket .free) ∧
    (Instr.wellFormed (.alloc 12#32) = true ∧ (packet p12).fault = false ∧ (packet p12).valid = createsPacket (.alloc 12#32)) := by
  decide

/-- `BoundsFaultExactlyWhenTheTableSays`: each row of the table one byte short, and with that byte. -/
theorem witness_bounds_csrc :
    (Ready (packet0 0x81#8 (List.replicate 3 0x00#8)) ∧ BoundsFault .rdcsrc (packet0 0x81#8 (List.replicate 3 0x00#8)) ∧
      ¬ BoundsFault .rdcsrc (packet0 0x81#8 (List.replicate 4 0x00#8))) ∧
    (BoundsFault (.wrcsrc [7#32]) (packet0 0x80#8 (List.replicate 3 0x00#8)) ∧
      ¬ BoundsFault (.wrcsrc [7#32]) (packet0 0x80#8 (List.replicate 4 0x00#8))) := by
  unfold BoundsFault; decide

theorem witness_bounds_lengths :
    (BoundsFault .hlen (packet0 0x90#8 (List.replicate 3 0x00#8)) ∧ ¬ BoundsFault .hlen (packet0 0x90#8 (List.replicate 4 0x00#8))) ∧
    (BoundsFault .plen (packet0 0x90#8 (List.replicate 3 0x00#8)) ∧ BoundsFault .pview (packet0 0x90#8 (List.replicate 3 0x00#8))) ∧
    (BoundsFault .plen (packet0 0x81#8 (List.replicate 3 0x00#8)) ∧ BoundsFault .pview (packet0 0x81#8 (List.replicate 3 0x00#8))) := by
  unfold BoundsFault
  exact ⟨by decide, ⟨.inl (by decide), .inl (by decide)⟩, .inr ⟨16, by decide, by decide⟩, .inr ⟨16, by decide, by decide⟩⟩

theorem witness_bounds_extension :
    (BoundsFault .xprof (packet0 0x90#8 [0x00#8]) ∧ ¬ BoundsFault .xprof (packet0 0x90#8 [0x00#8, 0x00#8])) ∧
    (BoundsFault .xview (packet0 0x90#8 [0x00#8, 0x00#8, 0x00#8]) ∧
      BoundsFault .xview (packet0 0x90#8 [0x00#8, 0x00#8, 0x00#8, 0x01#8, 0x00#8, 0x00#8, 0x00#8]) ∧
      ¬ BoundsFault .xview (packet0 0x90#8 [0x00#8, 0x00#8, 0x00#8, 0x01#8, 0x00#8, 0x00#8, 0x00#8, 0x00#8])) := by
  unfold BoundsFault; decide

/-- `GuardedAccessesStayInsideLen`: a packet of 12 bytes; accesses that end at `LEN` and one byte beyond. -/
theorem witness_guard :
    8 + 4 ≤ (packet p12).len.toNat ∧ (packet p12).len.toNat < 9 + 4 ∧ 10 + 2 ≤ (packet p12).len.toNat ∧
    (packet p12).len.toNat < 11 + 2 ∧ 11 + 1 ≤ (packet p12).len.toNat ∧ (packet p12).len.toNat < 12 + 1 ∧
    12 + 0 ≤ (packet p12).len.toNat ∧ (packet p12).len.toNat < 13 + 0 := by decide

/-- `BitFieldWritesReplaceTheField` and `WideFieldWritesAreBigEndian`: operands just out of range. -/
theorem witness_operand_range :
    3 < (4#32).toNat ∧ 127 < (128#32).toNat ∧ 65535 < (65536#32).toNat ∧ 15 < (16#32).toNat := by decide

/-- `FieldWritesDisturbNoOtherBit`, `CommandsWriteOnlyTheirBytes`: a bit and a byte a command does not own. -/
theorem witness_not_own :
    ∃ t, exec .setp (packet p12) = .next t ∧ ¬ OwnBit .setp 0 4 ∧ ¬ OwnBit .setp 1 5 ∧ ¬ WrittenByte .setp (packet p12) 1 ∧
      createsPacket .setp = false :=
  ⟨_, rfl, by unfold OwnBit; decide, by unfold OwnBit; decide, by unfold WrittenByte; decide, rfl⟩

/-- `RdcsrcGivesTheList`: 15 entries that fit exactly, and one byte short; an index below the count. -/
theorem witness_rdcsrc :
    (12 + 4 * csrcCount (packet0 0x8F#8 (List.replicate 60 0x00#8)).byte = (packet0 0x8F#8 (List.replicate 60 0x00#8)).len.toNat) ∧
    (packet0 0x8F#8 (List.replicate 59 0x00#8)).len.toNat < 12 + 4 * csrcCount (packet0 0x8F#8 (List.replicate 59 0x00#8)).byte ∧
    14 < csrcCount (packet0 0x8F#8 (List.replicate 60 0x00#8)).byte := by decide

/-- `WrcsrcWritesCountAndList` and `CsrcListReadsBack`: the same for the longest list; offsets outside it. -/
theorem witness_wrcsrc :
    (List.replicate 15 7#32).length ≤ 15 ∧ Ready (packet0 0x80#8 (List.replicate 60 0x00#8)) ∧
    12 + 4 * (List.replicate 15 7#32).length ≤ (packet0 0x80#8 (List.replicate 60 0x00#8)).len.toNat ∧
    (packet0 0x80#8 (List.replicate 59 0x00#8)).len.toNat < 12 + 4 * (List.replicate 15 7#32).length ∧
    (11 ≠ 0 ∧ 11 < 12) ∧ 12 + 4 * (List.replicate 15 7#32).length ≤ 72 := by decide

/-- `HlenGivesTheDeclaredLength`, `PlenGivesTheRest`, `PviewGivesThePayload`: the word count one byte out of reach and just in
reach, a header that ends at `LEN`, and one that is a byte too long. -/
theorem witness_lengths :
    CountOutOfReach (packet0 0x90#8 (List.replicate 3 0x00#8)).byte (packet0 0x90#8 (List.replicate 3 0x00#8)).len.toNat ∧
    ¬ CountOutOfReach (packet0 0x90#8 (List.replicate 4 0x00#8)).byte (packet0 0x90#8 (List.replicate 4 0x00#8)).len.toNat ∧
    (DeclaresHeader (packet0 0x90#8 (List.replicate 4 0x00#8)).byte 16 ∧
      16 ≤ (packet0 0x90#8 (List.replicate 4 0x00#8)).len.toNat) ∧
    (DeclaresHeader (packet0 0x81#8 (List.replicate 3 0x00#8)).byte 16 ∧
      (packet0 0x81#8 (List.replicate 3 0x00#8)).len.toNat < 16) := by decide

/-- `DerivedLengthsAgree`. -/
theorem witness_plen_ok : Ready (packet pk) ∧ AnswersOnly .plen (packet pk) .ok 5#32 [] := ⟨by decide, rfl⟩

/-- `XprofGivesTheProfile`: the flag 0; the flag 1 with the profile one byte out of reach and just in reach. -/
theorem witness_xprof :
    ¬ hasExtension (packet p12).byte ∧
    (hasExtension (packet0 0x90#8 [0x00#8]).byte ∧
      (packet0 0x90#8 [0x00#8]).len.toNat < extensionOffset (packet0 0x90#8 [0x00#8]).byte + 2) ∧
    (hasExtension (packet0 0x90#8 [0x00#8, 0x00#8]).byte ∧
      extensionOffset (packet0 0x90#8 [0x00#8, 0x00#8]).byte + 2 ≤ (packet0 0x90#8 [0x00#8, 0x00#8]).len.toNat) := by decide

/-- `XviewGivesTheRegion`: the region one byte out of reach and just in reach (the count out of reach: `witness_lengths`). -/
theorem witness_xview :
    (hasExtension (packet0 0x90#8 [0#8, 0#8, 0#8, 1#8, 0#8, 0#8, 0#8]).byte ∧
      (packet0 0x90#8 [0#8, 0#8, 0#8, 1#8, 0#8, 0#8, 0#8]).len.toNat <
        extensionOffset (packet0 0x90#8 [0#8, 0#8, 0#8, 1#8, 0#8, 0#8, 0#8]).byte + 4 +
          4 * wordCount (packet0 0x90#8 [0#8, 0#8, 0#8, 1#8, 0#8, 0#8, 0#8]).byte) ∧
    (hasExtension (packet0 0x90#8 [0#8, 0#8, 0#8, 1#8, 0#8, 0#8, 0#8, 0#8]).byte ∧
      extensionOffset (packet0 0x90#8 [0#8, 0#8, 0#8, 1#8, 0#8, 0#8, 0#8, 0#8]).byte + 4 +
          4 * wordCount (packet0 0x90#8 [0#8, 0#8, 0#8, 1#8, 0#8, 0#8, 0#8, 0#8]).byte ≤
        (packet0 0x90#8 [0#8, 0#8, 0#8, 1#8, 0#8, 0#8, 0#8, 0#8]).len.toNat) := by decide

/-- `XputLaysOutThePaddedBlock`, `ExtensionBlockReadsBack`, `XputLeavesTheFlag`: a block of one byte of data that fits exactly,
with three bytes of padding, and one byte short; the flag 1 and 0. -/
theorem witness_xput :
    ([5#8].length < 4294967296 ∧ ([5#8].length + 3) / 4 ≤ 65535 ∧ Ready (packet0 0x90#8 (List.replicate 8 0#8)) ∧
      extensionOffset (packet0 0x90#8 (List.replicate 8 0#8)).byte + 4 + 4 * (([5#8].length + 3) / 4) ≤
        (packet0 0x90#8 (List.replicate 8 0#8)).len.toNat ∧
      hasExtension (packet0 0x90#8 (List.replicate 8 0#8)).byte ∧ [5#8].length ≤ 3 ∧ 3 < 4 * (([5#8].length + 3) / 4)) ∧
    (packet0 0x90#8 (List.replicate 7 0#8)).len.toNat <
      extensionOffset (packet0 0x90#8 (List.replicate 7 0#8)).byte + 4 + 4 * (([5#8].length + 3) / 4) ∧
    ¬ hasExtension (packet0 0x80#8 (List.replicate 8 0#8)).byte := by decide

/-- The same at the largest word count (43_extension.md R177): 262140 bytes are 65535 words, one byte more is one word more. -/
theorem witness_xput_count :
    ((List.replicate 262140 0#8).length + 3) / 4 ≤ 65535 ∧ 65535 < ((List.replicate 262141 0#8).length + 3) / 4 := by
  simp only [List.length_replicate]; decide

/-- `AllocCreatesAnUnspecifiedPacket`: sizes 11, 12, `BUF_CAP` and one more. -/
theorem witness_alloc :
    State.reset.fault = false ∧ State.reset.valid = false ∧ (11#32).toNat < 12 ∧ 12 ≤ (12#32).toNat ∧
    (12#32).toNat ≤ ({ State.reset with bufCap := 12 } : State).bufCap ∧
    ({ State.reset with bufCap := 12 } : State).bufCap < (13#32).toNat := by decide

/-- `LoadAcceptsBytesThatHoldTheirHeader`: 12 bytes at a `BUF_CAP` of 12; 11 bytes; 13 bytes; a word count out of reach; a header a
byte too long. -/
theorem witness_load :
    (p12.length ≤ 12 ∧ 12 ≤ p12.length ∧ DeclaresHeader (fun a => p12.getD a 0#8) 12) ∧
    (p12.take 11).length < 12 ∧ 12 < (p12 ++ [0#8]).length ∧
    CountOutOfReach (fun a => (0x90#8 :: p12.drop 1 ++ [0#8, 0#8, 0#8]).getD a 0#8)
      (0x90#8 :: p12.drop 1 ++ [0#8, 0#8, 0#8]).length ∧
    (DeclaresHeader (fun a => (0x81#8 :: p12.drop 1 ++ [0#8, 0#8, 0#8]).getD a 0#8) 16 ∧
      (0x81#8 :: p12.drop 1 ++ [0#8, 0#8, 0#8]).length < 16) := by decide

/-- `SerGivesThePacketAndLoadRestoresIt`, second clause: a packet that fills a `BUF_CAP` of 12. -/
theorem witness_ser :
    Ready { packet p12 with bufCap := 12 } ∧ 12 ≤ ({ packet p12 with bufCap := 12 } : State).len.toNat ∧
    ({ packet p12 with bufCap := 12 } : State).len.toNat ≤ ({ packet p12 with bufCap := 12 } : State).bufCap ∧
    DeclaresHeader ({ packet p12 with bufCap := 12 } : State).byte 12 := by decide

/-- The state after `LOAD PK` from reset. -/
def loaded : State := { packet pk with replies := [⟨.ok, 0#32, []⟩] }

/-- `AfterLoadEveryReadAnswersOk`: all hypotheses together, with the extension flag 1. -/
theorem witness_after_load :
    pk.length < 4294967296 ∧ State.reset.fault = false ∧ State.reset.valid = false ∧
    exec (.load pk) State.reset = .next loaded ∧ loaded.valid = true ∧ Ready loaded ∧ hasExtension loaded.byte :=
  ⟨by decide, rfl, rfl, rfl, rfl, by decide, by decide⟩

/-- `StepKeepsTheControlRelations`, `CommandsWriteOnlyTheirBytes`, `BytesBeyondLenAreUnobservable`,
`ReadsDependOnThePacketAlone`: a state with a packet in which
the relations hold, and a step from it. -/
theorem witness_controlInv : ControlInv (packet p12) where
  cap_ge := by decide
  cap_le := by decide
  valid_len := by decide
  invalid_len := by decide
  nofault_cause := by decide
  fault_cause := by decide

theorem witness_controlInv_latched : ControlInv latched where
  cap_ge := by decide
  cap_le := by decide
  valid_len := by decide
  invalid_len := by decide
  nofault_cause := by decide
  fault_cause := by decide

/-- `StepKeepsTheBufferWritten`: the same state has its buffer written. -/
theorem witness_bufInv : BufInv (packet p12) where
  canonical := by decide
  inside := by decide
  held := by
    have h : ∀ a, a < 12 → ((packet p12).buf.get? a).isSome = true := by decide
    intro a ha
    exact Option.isSome_iff_exists.mp (h a ha)

theorem witness_step_next : ∃ t, step (packet p12) = .next t := ⟨_, rfl⟩

/-- `OnlyCreationAndReleaseChangeLenAndValid`: commands that change `LEN` and `VALID`. -/
theorem witness_len_valid_change :
    (∃ t, exec (.load p12) State.reset = .next t ∧ t.len ≠ State.reset.len ∧ t.valid ≠ State.reset.valid) ∧
    (∃ t, exec .free (packet p12) = .next t ∧ t.len ≠ (packet p12).len ∧ t.valid ≠ (packet p12).valid) :=
  ⟨⟨_, rfl, by decide, by decide⟩, ⟨_, rfl, by decide, by decide⟩⟩

/-- `BytesBeyondLenAreUnobservable`: two states that differ in a byte above `LEN`, in the port and in the responses. -/
theorem witness_indistinct :
    Indistinct (packet p12) { packet p12 with buf := cellsAt 0 (p12 ++ [0x99#8]), port := [.reset], replies := [⟨.ok, 0#32, []⟩] } := by
  refine ⟨rfl, rfl, rfl, rfl, rfl, rfl, ?_⟩
  have h : ∀ a, a < 12 → ({ packet p12 with
      buf := cellsAt 0 (p12 ++ [0x99#8]), port := [.reset], replies := [⟨.ok, 0#32, []⟩] } : State).byte a = (packet p12).byte a := by
    decide
  exact h

/-- The packet P12 with another byte above `LEN`, another `BUF_CAP` and another count of `ALLOC`s. -/
def alike : State := { packet p12 with buf := cellsAt 0 (p12 ++ [0x99#8]), bufCap := 13, allocs := 4 }

/-- `ReadsDependOnThePacketAlone`: both clauses. -/
theorem witness_read :
    Instr.rdv ∈ readCommands ∧ (∃ t, exec .rdv (packet p12) = .next t) ∧
    alike.valid = (packet p12).valid ∧ alike.fault = (packet p12).fault ∧ alike.len = (packet p12).len ∧
    alike.buf ≠ (packet p12).buf ∧ ∀ a, a < (packet p12).len.toNat → alike.byte a = (packet p12).byte a :=
  have h : ∀ a, a < 12 → alike.byte a = (packet p12).byte a := by decide
  ⟨by decide, ⟨_, rfl⟩, rfl, rfl, rfl, by decide, h⟩

/-- A loaded packet whose header fills it, with one command on the port. -/
def oneCommand (w : CmdWord) : State := { packet p12 with port := [.command w []] }

/-- `StepKeepsTheHeaderFitting`: a header that ends at `LEN`, and a command (`CLRX`) that may not lengthen it. -/
theorem witness_headerFits :
    ∃ s t : State, HeaderFits s ∧ s.valid = true ∧ step s = .next t ∧
      ∀ w din rest i, s.port = .command w din :: rest → decodeCommand w din = .ok i → mayLengthenHeader i = false := by
  refine ⟨oneCommand 0x3200000000000000#64, _, fun _ => ⟨12, by decide, by decide⟩, rfl, rfl, ?_⟩
  intro w din rest i hp hd
  cases hp
  have h : decodeCommand 0x3200000000000000#64 [] = .ok .clrx := by decide
  rw [h] at hd
  cases hd
  rfl

/-- `SETX` is rightly left out there: after it the word count of the same packet is out of reach. -/
theorem test_setx_lengthens_header :
    CountOutOfReach (fun a => (bytesAfter 12 (exec .setx (packet p12))).getD a 0x00#8) 12 ∧ mayLengthenHeader .setx = true := by
  decide

end Sys2Proof.Tests
end

section
/-! PROOF. Responses and failures (20_memory.md R60): the seven effects of a command fall into three kinds of answer. -/
namespace Sys2Proof.Machine

/-- A success: the answer is `OK`, and the latch and what no command changes are as before. -/
def Succeeds (s t : State) (v : Word) (d : List Byte) : Prop :=
  t.replies = s.replies ++ [⟨.ok, v, d⟩] ∧ t.port = s.port ∧ t.bufCap = s.bufCap ∧ t.resets = s.resets ∧
  t.fault = s.fault ∧ t.fcause = s.fcause

/-- The classes of 60_exceptions.md R211: a failure that only answers, fault entry, or a success. -/
theorem Effect.failure_or_success {s t : State} (h : Effect s t) :
    (∃ st, st ≠ .ok ∧ st ≠ .faultBounds ∧ t = s.fail st) ∨ t = s.raiseBounds ∨ ∃ v d, Succeeds s t v d := by
  cases h with
  | fails st hok hfb => exact .inl ⟨st, hok, hfb, rfl⟩
  | faults _ => exact .inr (.inl rfl)
  | reads _ v d => exact .inr (.inr ⟨v, d, rfl, rfl, rfl, rfl, rfl, rfl⟩)
  | writes _ _ _ _ | writesList _ _ _ _ | creates _ _ _ _ _ _ _ _ | releases _ =>
    exact .inr (.inr ⟨0#32, [], rfl, rfl, rfl, rfl, rfl, rfl⟩)

/-- Settles O10: each of the three kinds of answer meets every clause. -/
theorem failedCommandsChangeNothing : Obligations.FailedCommandsChangeNothing := by
  intro i s
  obtain ⟨t, ht, he⟩ := exec_effect i s
  rcases he.failure_or_success with ⟨st, hok, hfb, rfl⟩ | rfl | ⟨v, d, hr, hp, hc, hn, hf, hfc⟩
  · exact ⟨_, ⟨st, 0#32, []⟩, ht, rfl, rfl, rfl, rfl, fun _ => ⟨rfl, rfl, rfl, rfl, rfl, rfl⟩, fun _ _ => rfl,
      fun h => absurd h hok, fun h => absurd h hfb⟩
  · exact ⟨_, ⟨.faultBounds, 0#32, []⟩, ht, rfl, rfl, rfl, rfl, fun _ => ⟨rfl, rfl, rfl, rfl, rfl, rfl⟩,
      fun _ h => absurd rfl h, nofun, fun _ => rfl⟩
  · exact ⟨t, ⟨.ok, v, d⟩, ht, hr, hp, hc, hn, fun h => absurd rfl h, fun h => absurd rfl h, fun _ => ⟨hf, hfc⟩, nofun⟩

end Sys2Proof.Machine
end

section
/-! PROOF. Read commands (20_memory.md R64): from two states with the same packet they do the same, and no more than answer or
take the latch. -/
namespace Sys2Proof.Machine

/-! ## States with the same packet -/

/-- The two states have the same `VALID`, `FAULT` and `LEN`, and while there is a packet the same bytes in the fixed header and
below `LEN`: all that a read command can see. -/
structure SamePacket (s s' : State) : Prop where
  valid : s'.valid = s.valid
  fault : s'.fault = s.fault
  len : s'.len = s.len
  byte : s.valid = true → ∀ a, a < 12 ∨ a < s.len.toNat → s'.byte a = s.byte a

theorem SamePacket.refl (s : State) : SamePacket s s := ⟨rfl, rfl, rfl, fun _ _ _ => rfl⟩

/-- The control relations put the fixed header below `LEN` (10_state.md R33). -/
theorem SamePacket.of_controlInv {s s' : State} (hc : ControlInv s) (hv : s'.valid = s.valid) (hf : s'.fault = s.fault)
    (hl : s'.len = s.len) (hb : ∀ a, a < s.len.toNat → s'.byte a = s.byte a) : SamePacket s s' where
  valid := hv
  fault := hf
  len := hl
  byte hp a ha := hb a (by have := (hc.valid_len hp).1; omega)

theorem rd16_congr {rd rd' : Nat → Byte} {a : Nat} (h : ∀ k, k < 2 → rd' (a + k) = rd (a + k)) : rd16 rd' a = rd16 rd a := by
  have h0 : rd' a = rd a := h 0 (by omega)
  rw [rd16, rd16, h0, h 1 (by omega)]

theorem rd32_congr {rd rd' : Nat → Byte} {a : Nat} (h : ∀ k, k < 4 → rd' (a + k) = rd (a + k)) : rd32 rd' a = rd32 rd a := by
  have h0 : rd' a = rd a := h 0 (by omega)
  rw [rd32, rd32, h0, h 1 (by omega), h 2 (by omega), h 3 (by omega)]

section
variable {s s' : State} (h : SamePacket s s') (hv : s.valid = true)
include h hv

theorem SamePacket.byte_header {a : Nat} (ha : a < 12) : s'.byte a = s.byte a := h.byte hv a (.inl ha)

theorem SamePacket.rd16_header {a : Nat} (ha : a + 2 ≤ 12) : rd16 s'.byte a = rd16 s.byte a :=
  rd16_congr (fun _ _ => h.byte_header hv (by omega))

theorem SamePacket.rd32_header {a : Nat} (ha : a + 4 ≤ 12) : rd32 s'.byte a = rd32 s.byte a :=
  rd32_congr (fun _ _ => h.byte_header hv (by omega))

theorem SamePacket.cc : s'.cc = s.cc := by rw [State.cc, State.cc, h.byte_header hv (by omega)]

theorem SamePacket.xflag : s'.xflag = s.xflag := by rw [State.xflag, State.xflag, h.byte_header hv (by omega)]

theorem SamePacket.xoff : s'.xoff = s.xoff := by rw [State.xoff, State.xoff, h.byte_header hv (by omega)]

theorem SamePacket.memReadBytes (a n : Nat) : s'.memReadBytes a n = s.memReadBytes a n := by
  by_cases hg : a + n ≤ s.len.toNat
  · have hb : s'.bytes a n = s.bytes a n := State.bytes_congr (fun k hk => h.byte hv (a + k) (.inr (by omega)))
    rw [State.memReadBytes_eq_some hg, State.memReadBytes_eq_some (by rw [h.len]; exact hg), hb]
  · have hg' : s.len.toNat < a + n := by omega
    rw [State.memReadBytes_eq_none hg', State.memReadBytes_eq_none (by rw [h.len]; exact hg')]

theorem SamePacket.memRead2 (a : Nat) : s'.memRead2 a = s.memRead2 a := by
  rw [State.memRead2, State.memRead2, h.len]
  by_cases hg : a + 2 ≤ s.len.toNat
  · have hb : rd16 s'.byte a = rd16 s.byte a := rd16_congr (fun k hk => h.byte hv (a + k) (.inr (by omega)))
    rw [guardedRead16_eq_some hg, guardedRead16_eq_some hg, hb]
  · rw [guardedRead16_eq_none (by omega), guardedRead16_eq_none (by omega)]

theorem SamePacket.xwords : s'.xwords = s.xwords := by rw [State.xwords, State.xwords, h.xoff hv, h.memRead2 hv]

theorem SamePacket.hlen : s'.hlen = s.hlen := by
  rw [State.hlen, State.hlen, h.len]
  exact headerLength_congr (h.byte_header hv (by omega))
    (fun _ hl => ⟨h.byte hv _ (.inr (by omega)), h.byte hv _ (.inr (by omega))⟩)

theorem SamePacket.plen : s'.plen = s.plen := by rw [State.plen, State.plen, h.hlen hv, h.len]

end

/-! ## What a read command does, in two states at once -/

/-- From `s` and `s'` to `t` and `t'` by the same answer that writes nothing: a failure, fault entry, or `OK`. -/
inductive AnswersAlike (s s' : State) : State → State → Prop
  | fails (st : Status) : AnswersAlike s s' (s.fail st) (s'.fail st)
  | faults : AnswersAlike s s' s.raiseBounds s'.raiseBounds
  | reads (v : Word) (d : List Byte) : AnswersAlike s s' (s.respond .ok v d) (s'.respond .ok v d)

theorem AnswersAlike.same_response {s s' t t' : State} (h : AnswersAlike s s' t t') :
    ∃ r, t.replies = s.replies ++ [r] ∧ t'.replies = s'.replies ++ [r] := by
  cases h with
  | fails st => exact ⟨⟨st, 0#32, []⟩, rfl, rfl⟩
  | faults => exact ⟨⟨.faultBounds, 0#32, []⟩, rfl, rfl⟩
  | reads v d => exact ⟨⟨.ok, v, d⟩, rfl, rfl⟩

theorem AnswersAlike.frame {s s' t t' : State} (h : AnswersAlike s s' t t') :
    t.buf = s.buf ∧ t.len = s.len ∧ t.valid = s.valid ∧ t.resets = s.resets ∧ t.allocs = s.allocs := by
  cases h with
  | fails _ | faults | reads _ _ => exact ⟨rfl, rfl, rfl, rfl, rfl⟩

/-- From the bodies to the whole commands: the prologue reads `FAULT` and `VALID` alone. -/
theorem answersAlike_withPacket {s s' body body' : State} (h : SamePacket s s')
    (hb : s.valid = true → AnswersAlike s s' body body') :
    AnswersAlike s s' (withPacket s body) (withPacket s' body') := by
  rcases withPacket_cases s body with ⟨hf, e⟩ | ⟨hf, hv, e⟩ | ⟨hr, e⟩ <;> rw [e]
  · rw [withPacket_faulted (h.fault.trans hf)]
    exact .fails _
  · rw [withPacket_noPacket (h.fault.trans hf) (h.valid.trans hv)]
    exact .fails _
  · rw [withPacket_ready ⟨h.fault.trans hr.1, h.valid.trans hr.2⟩]
    exact hb hr.2

/-- A getter. -/
theorem answersAlike_value {s s' : State} {v v' : Word} (h : SamePacket s s') (hv : s.valid = true → v' = v) :
    AnswersAlike s s' (withPacket s (s.value v)) (withPacket s' (s'.value v')) :=
  answersAlike_withPacket h (fun hp => by rw [hv hp]; exact .reads v [])

/-- `exec i` does the same in both states. -/
def ExecAlike (i : Instr) (s s' : State) : Prop :=
  ∃ t t', exec i s = .next t ∧ exec i s' = .next t' ∧ AnswersAlike s s' t t'

section
variable {s s' : State} (h : SamePacket s s')
include h

theorem ser_alike : ExecAlike .ser s s' := by
  refine ⟨_, _, rfl, rfl, answersAlike_withPacket h (fun hv => ?_)⟩
  rw [h.len, h.memReadBytes hv]
  cases s.memReadBytes 0 s.len.toNat with
  | none => exact .faults
  | some bytes => exact .reads _ _

theorem rdcsrc_alike : ExecAlike .rdcsrc s s' := by
  refine ⟨_, _, rfl, rfl, answersAlike_withPacket h (fun hv => ?_)⟩
  rw [h.cc hv, h.memReadBytes hv]
  cases s.memReadBytes 12 (4 * s.cc) with
  | none => exact .faults
  | some bytes => exact .reads _ _

theorem hlen_alike : ExecAlike .hlen s s' := by
  refine ⟨_, _, rfl, rfl, answersAlike_withPacket h (fun hv => ?_)⟩
  rw [h.hlen hv]
  cases s.hlen with
  | none => exact .faults
  | some n => exact .reads _ _

theorem plen_alike : ExecAlike .plen s s' := by
  refine ⟨_, _, rfl, rfl, answersAlike_withPacket h (fun hv => ?_)⟩
  rw [h.plen hv]
  cases s.plen with
  | none => exact .faults
  | some p => exact .reads _ _

theorem pview_alike : ExecAlike .pview s s' := by
  refine ⟨_, _, rfl, rfl, answersAlike_withPacket h (fun hv => ?_)⟩
  rw [h.hlen hv, h.len]
  cases s.hlen with
  | none => exact .faults
  | some n =>
    by_cases hn : s.len.toNat < n
    · simpa only [if_pos hn] using .faults
    · simp only [if_neg hn, h.memReadBytes hv]
      cases s.memReadBytes n (s.len.toNat - n) with
      | none => exact .faults
      | some bytes => exact .reads _ _

theorem xprof_alike : ExecAlike .xprof s s' := by
  refine ⟨_, _, rfl, rfl, answersAlike_withPacket h (fun hv => ?_)⟩
  rw [h.xflag hv, h.xoff hv, h.memRead2 hv]
  cases s.xflag with
  | false => exact .reads _ _
  | true =>
    cases s.memRead2 s.xoff with
    | none => exact .faults
    | some p => exact .reads _ _

theorem xview_alike : ExecAlike .xview s s' := by
  refine ⟨_, _, rfl, rfl, answersAlike_withPacket h (fun hv => ?_)⟩
  rw [h.xflag hv, h.xwords hv, h.xoff hv]
  cases s.xflag with
  | false => exact .reads _ _
  | true =>
    cases s.xwords with
    | none => exact .faults
    | some n =>
      simp only [h.memReadBytes hv]
      cases s.memReadBytes (s.xoff + 4) (4 * n.toNat) with
      | none => exact .faults
      | some bytes => exact .reads _ _

/-- EVERY READ COMMAND does the same in two states with the same packet, and writes nothing. -/
theorem readCommand_alike {i : Instr} (hi : i ∈ readCommands) : ExecAlike i s s' := by
  cases i with
  | rdv | rdp | rdx | rdcc | rdm | rdpt =>
    exact ⟨_, _, rfl, rfl, answersAlike_value h (fun hv => by rw [h.byte_header hv (by omega)])⟩
  | rdseq => exact ⟨_, _, rfl, rfl, answersAlike_value h (fun hv => by rw [h.rd16_header hv (by omega)])⟩
  | rdts | rdssrc => exact ⟨_, _, rfl, rfl, answersAlike_value h (fun hv => h.rd32_header hv (by omega))⟩
  | ser => exact ser_alike h
  | rdcsrc => exact rdcsrc_alike h
  | hlen => exact hlen_alike h
  | plen => exact plen_alike h
  | pview => exact pview_alike h
  | xprof => exact xprof_alike h
  | xview => exact xview_alike h
  | alloc _ | load _ | free | wrv _ | setp | setx | wrcc _ | setm | wrpt _ | wrseq _ | wrts _ | wrssrc _ | wrcsrc _ | clrp
  | clrx | clrm | xput _ _ => simp [readCommands] at hi

end

/-- Settles O46: the first clause by `readCommand_alike`, the second by the same lemma with the state compared with itself. -/
theorem readsDependOnThePacketAlone : Obligations.ReadsDependOnThePacketAlone := by
  constructor
  · intro i hi s s' hc hv hf hl hb
    obtain ⟨t, t', ht, ht', ha⟩ := readCommand_alike (SamePacket.of_controlInv hc hv hf hl hb) hi
    obtain ⟨r, hr, hr'⟩ := ha.same_response
    exact ⟨t, t', r, ht, ht', hr, hr'⟩
  · intro i hi s t ht
    obtain ⟨u, _, hu, _, ha⟩ := readCommand_alike (SamePacket.refl s) hi
    cases hu.symm.trans ht
    exact ha.frame

end Sys2Proof.Machine
end

section
/-! PROOF. The opcode table (30_encoding.md R88): masking a word tests its fields one by one, and each row's mask and match are
put together from the row's opcode and operand widths. -/
namespace Sys2Proof

/-! ## Masks on a field -/

/-- No bit of `v` at position `k` or above is 1. -/
theorem and_highBits_eq_zero_iff {n : Nat} (v : BitVec n) (k : Nat) :
    v &&& (BitVec.allOnes n <<< k) = 0#n ↔ v.toNat < 2 ^ k := by
  constructor
  · intro h
    apply Nat.lt_pow_two_of_testBit
    intro i hi
    by_cases hn : i < n
    · have hbit : v.getLsbD i = (v &&& (BitVec.allOnes n <<< k)).getLsbD i := by
        simp [hn, show ¬ i < k by omega]
      exact hbit.trans (by simp [h])
    · exact BitVec.getLsbD_of_ge v i (by omega)
  · intro h
    apply BitVec.eq_of_getLsbD_eq
    intro i hi
    by_cases hk : i < k
    · simp [hk]
    · have hbit : v.getLsbD i = false := Nat.testBit_lt_two_pow (h.trans_le (Nat.pow_le_pow_right (by omega) (by omega)))
      simp [hbit]

/-- Two command words are equal when their fields are. -/
theorem CmdWord.ofFields_inj {o o' r r' : BitVec 8} {a a' : Half} {v v' : Word} :
    CmdWord.ofFields o r a v = CmdWord.ofFields o' r' a' v' ↔ o = o' ∧ r = r' ∧ a = a' ∧ v = v' := by
  constructor
  · intro h
    exact ⟨by simpa only [CmdWord.opc_ofFields] using congrArg CmdWord.opc h,
      by simpa only [CmdWord.rsv_ofFields] using congrArg CmdWord.rsv h,
      by simpa only [CmdWord.a16_ofFields] using congrArg CmdWord.a16 h,
      by simpa only [CmdWord.a32_ofFields] using congrArg CmdWord.a32 h⟩
  · rintro ⟨rfl, rfl, rfl, rfl⟩
    rfl

/-- A mask put together from fields masks field by field. -/
theorem CmdWord.and_ofFields (w : CmdWord) (o r : BitVec 8) (a : Half) (v : Word) :
    w &&& CmdWord.ofFields o r a v = CmdWord.ofFields (w.opc &&& o) (w.rsv &&& r) (w.a16 &&& a) (w.a32 &&& v) := by
  conv_lhs => rw [← CmdWord.ofFields_eta w]
  unfold CmdWord.ofFields
  rw [BitVec.and_append, BitVec.and_append, BitVec.and_append]

/-! ## The rows -/

/-- The mask of a row, from its operand widths (30_encoding.md R88). -/
theorem Op.mask_eq_ofFields (o : Op) :
    o.mask =
      CmdWord.ofFields 0xFF#8 0xFF#8 (if o.usesA16 then 0x0000#16 else 0xFFFF#16) (0xFFFFFFFF#32 <<< o.a32Bits) := by
  cases o <;> decide

/-- The match of a row, from its opcode (30_encoding.md R88). -/
theorem Op.pattern_eq_ofFields (o : Op) : o.pattern = CmdWord.ofFields o.opc 0x00#8 0x0000#16 0x00000000#32 := by
  cases o <;> decide

/-- The `A16` part of a row's mask lets every value through when the row uses `A16`, and 0 alone otherwise. -/
theorem Op.and_a16Mask_eq_zero_iff (o : Op) (a : Half) :
    a &&& (if o.usesA16 then 0x0000#16 else 0xFFFF#16) = 0#16 ↔ (o.usesA16 = false → a = 0#16) := by
  cases o.usesA16 with
  | true => simp
  | false =>
    have h : a &&& 0xFFFF#16 = a := BitVec.and_allOnes
    simp [h]

/-- The table's test `(w & mask) = match` is the decoder's test of the fields. -/
theorem Op.and_mask_eq_pattern_iff (w : CmdWord) (o : Op) : w &&& o.mask = o.pattern ↔ decodeWord w = .ok o := by
  have hopc : w.opc &&& 0xFF#8 = w.opc := BitVec.and_allOnes
  have hrsv : w.rsv &&& 0xFF#8 = w.rsv := BitVec.and_allOnes
  have ha32 : w.a32 &&& (0xFFFFFFFF#32 <<< o.a32Bits) = 0#32 ↔ w.a32.toNat < 2 ^ o.a32Bits :=
    and_highBits_eq_zero_iff w.a32 o.a32Bits
  rw [decodeWord_eq_ok_iff, Op.mask_eq_ofFields, Op.pattern_eq_ofFields, CmdWord.and_ofFields, CmdWord.ofFields_inj, hopc, hrsv,
    Op.and_a16Mask_eq_zero_iff, ha32]

/-- A word matches at most one row: the decoder, a function, would answer both. -/
theorem Op.eq_of_and_mask_eq_pattern {w : CmdWord} {o p : Op} (ho : w &&& o.mask = o.pattern) (hp : w &&& p.mask = p.pattern) :
    o = p := by
  rw [Op.and_mask_eq_pattern_iff] at ho hp
  exact Except.ok.inj (ho.symm.trans hp)

/-- Settles O3: the table's test is the decoder's, so the decoder selects the row and no word has two. -/
theorem decodingSelectsTheOpcodeTableRow : Obligations.DecodingSelectsTheOpcodeTableRow :=
  ⟨fun w o => (Op.and_mask_eq_pattern_iff w o).symm, fun _ _ _ => Op.eq_of_and_mask_eq_pattern,
    fun o => ⟨o.mask_eq_ofFields, o.pattern_eq_ofFields⟩⟩

end Sys2Proof
end

section
/-! PROOF. Illegal command words (30_encoding.md R89, 60_exceptions.md R217): the spec's list, row by row, is what the decoder
rejects, and a step answers a rejected word without any other effect. -/
namespace Sys2Proof.Machine

/-! ## The list of R89 against the opcode map -/

/-- The opcode of a row is none of the opcodes of no command. -/
theorem not_unassignedOpcode_opc (o : Op) : ¬ UnassignedOpcode o.opc.toNat := by
  unfold UnassignedOpcode
  cases o <;> decide

/-- A byte that selects no row is the opcode of no row. -/
theorem opc_ne_of_ofOpc_eq_none {b : BitVec 8} (h : Op.ofOpc b = none) : ∀ o ∈ Op.all, o.opc.toNat ≠ b.toNat := by
  intro o _ hb
  rw [← BitVec.eq_of_toNat_eq hb, Op.ofOpc_opc] at h
  cases h

/-- The opcodes of no command are those that select no row. -/
theorem unassignedOpcode_iff (b : BitVec 8) : UnassignedOpcode b.toNat ↔ Op.ofOpc b = none := by
  constructor
  · intro hb
    by_contra hsome
    obtain ⟨o, ho⟩ := Option.ne_none_iff_exists'.mp hsome
    exact not_unassignedOpcode_opc o (by rwa [Op.opc_of_ofOpc ho])
  · intro hnone
    have hne := opc_ne_of_ofOpc_eq_none hnone
    have hlt := b.isLt
    simp only [Op.all, List.cons_append, List.nil_append, List.forall_mem_cons, Op.opc, BitVec.toNat_ofNat, Nat.reducePow,
      Nat.reduceMod] at hne
    unfold UnassignedOpcode
    omega

/-- The part of R89 that is about `A32`: the clauses of `IllegalWord` for an opcode `b` and an `A32` of `v`. -/
def A32NotAllowed (b : BitVec 8) (v : Word) : Prop :=
  (b ∉ [0x01#8, 0x02#8, 0x20#8, 0x23#8, 0x25#8, 0x26#8, 0x27#8, 0x28#8, 0x29#8, 0x52#8] ∧ v ≠ 0#32) ∨
  (b = 0x20#8 ∧ 3 < v.toNat) ∨ (b = 0x25#8 ∧ 127 < v.toNat) ∨ (b = 0x26#8 ∧ 65535 < v.toNat) ∨ (b = 0x29#8 ∧ 15 < v.toNat)

/-- `XPUT` alone uses `A16`. -/
theorem usesA16_eq_false_iff (o : Op) : o.usesA16 = false ↔ o.opc ≠ 0x52#8 := by cases o <;> decide

/-- A row's `A32` clause: its value does not fit the row's operand. -/
theorem a32NotAllowed_iff (o : Op) (v : Word) : A32NotAllowed o.opc v ↔ 2 ^ o.a32Bits ≤ v.toNat := by
  unfold A32NotAllowed
  cases o with
  | wrv | wrpt | wrseq | wrcsrc => simp [Op.opc, Op.a32Bits, Nat.lt_iff_add_one_le]
  | alloc | load | wrcc | wrts | wrssrc | xput => simpa [Op.opc, Op.a32Bits] using v.isLt
  | ser | free | rdv | rdp | rdx | rdcc | rdm | rdpt | rdseq | rdts | rdssrc | rdcsrc | setp | setx | setm | clrp | clrx | clrm
  | hlen | plen | pview | xprof | xview =>
    simp [Op.opc, Op.a32Bits, Nat.one_le_iff_ne_zero, ← BitVec.toNat_inj]

/-- The illegal words of a row's opcode. -/
theorem illegalWord_iff_of_row {w : CmdWord} {o : Op} (h : Op.ofOpc w.opc = some o) :
    IllegalWord w ↔ w.rsv ≠ 0#8 ∨ (o.usesA16 = false ∧ w.a16 ≠ 0#16) ∨ 2 ^ o.a32Bits ≤ w.a32.toNat := by
  have hun : ¬ UnassignedOpcode w.opc.toNat := by simp [unassignedOpcode_iff, h]
  have hopc := Op.opc_of_ofOpc h
  rw [usesA16_eq_false_iff, ← a32NotAllowed_iff, hopc]
  exact or_iff_right hun

/-- A chain of checks rejects when its first check fails or the rest rejects. -/
theorem exists_ite_eq_error_iff {c : Prop} [Decidable c] {e₀ : Reject} {x : Except Reject Op} :
    (∃ e, (if c then .error e₀ else x) = Except.error e) ↔ c ∨ ∃ e, x = .error e := by
  by_cases hc : c <;> simp [hc]

/-- What the decoder rejects at a row's opcode: what is not the row. -/
theorem decodeWord_error_iff_of_row {w : CmdWord} {o : Op} (h : Op.ofOpc w.opc = some o) :
    (∃ e, decodeWord w = .error e) ↔ w.rsv ≠ 0#8 ∨ (o.usesA16 = false ∧ w.a16 ≠ 0#16) ∨ 2 ^ o.a32Bits ≤ w.a32.toNat := by
  unfold decodeWord
  rw [h]
  simp only [exists_ite_eq_error_iff, reduceCtorEq, exists_false, or_false]

/-- THE LIST OF R89 IS WHAT THE DECODER REJECTS. -/
theorem illegalWord_iff_decodeWord_error (w : CmdWord) : IllegalWord w ↔ ∃ e, decodeWord w = .error e := by
  cases h : Op.ofOpc w.opc with
  | none =>
    have hd : decodeWord w = .error .unknownOpcode := by rw [decodeWord, h]
    exact iff_of_true (.inl ((unassignedOpcode_iff _).mpr h)) ⟨_, hd⟩
  | some o => rw [illegalWord_iff_of_row h, decodeWord_error_iff_of_row h]

/-! ## The answer to an illegal word -/

/-- The port answers every reason the decoder of the word gives (60_exceptions.md R217, R218). -/
theorem rejectCommand_of_decodeWord {w : CmdWord} {e : Reject} (h : decodeWord w = .error e) (s : State) :
    rejectCommand e s = .next (illegalCommand s) := by
  unfold decodeWord at h
  split at h
  · cases h
    rfl
  · split at h
    · cases h
      rfl
    · split at h
      · cases h
        rfl
      · split at h
        · cases h
          split <;> rfl
        · cases h

/-- An illegal word has no `DIN` (30_encoding.md R91). -/
theorem dinBytes_of_error {w : CmdWord} {e : Reject} (h : decodeWord w = .error e) : dinBytes w = 0 := by
  rw [dinBytes, h]

/-- A step with an illegal word on the port. -/
theorem step_of_error {w : CmdWord} {e : Reject} (h : decodeWord w = .error e) {s : State} {rest : List Event}
    (hp : s.port = .command w [] :: rest) : step s = .next (illegalCommand { s with port := rest }) := by
  have hd : decodeCommand w [] = .error e := by
    rw [decodeCommand, if_neg (by simp [dinBytes_of_error h]), h]
  rw [step, hp]
  simp only [runCommand, hd]
  exact rejectCommand_of_decodeWord h _

/-- While no fault is latched, an illegal word is answered `ERR_ILLEGAL` (60_exceptions.md R217). -/
theorem illegalCommand_of_noFault {s : State} (hf : s.fault = false) : illegalCommand s = s.fail .errIllegal := by
  rw [illegalCommand, hf]
  rfl

/-- A word the decoder rejects is refused. -/
theorem refusedWord_of_error {w : CmdWord} {e : Reject} (h : decodeWord w = .error e) : RefusedWord w := by
  refine ⟨⟨e, h⟩, dinBytes_of_error h, fun s rest hf hp => ?_⟩
  rw [step_of_error h hp, illegalCommand_of_noFault (s := { s with port := rest }) hf]
  rfl

/-- Settles O4: the spec's list is what the decoder rejects, and what the decoder rejects is refused. -/
theorem illegalWordsAreAnsweredErrIllegal : Obligations.IllegalWordsAreAnsweredErrIllegal := by
  refine ⟨illegalWord_iff_decodeWord_error, fun w hw => ?_, .inl (.inl (by decide))⟩
  obtain ⟨e, he⟩ := (illegalWord_iff_decodeWord_error w).mp hw
  exact refusedWord_of_error he

end Sys2Proof.Machine
end

section
/-! PROOF. What the commands of the fixed header share: their words, the common prologue, and the two shapes of their bodies, a
getter's answer and a store of consecutive bytes. -/
namespace Sys2Proof.Machine

/-! ## Words -/

/-- `A32` stands in the low 32 bits of a command word (30_encoding.md R82). -/
theorem ofFields_eq_or (o : BitVec 8) (v : Word) :
    CmdWord.ofFields o 0#8 0#16 v = CmdWord.ofFields o 0#8 0#16 0#32 ||| v.setWidth 64 := by
  have hv : v.setWidth 64 = CmdWord.ofFields 0#8 0#8 0#16 v := by
    have h0 : (0#8 ++ 0#8 ++ 0#16 : BitVec (8 + 8 + 16)) = 0#32 := by decide
    rw [CmdWord.ofFields, h0]
    exact BitVec.setWidth_eq_append (by decide)
  rw [hv]
  unfold CmdWord.ofFields
  rw [BitVec.or_append, BitVec.or_append, BitVec.or_append]
  simp

/-- The word of a command without `A16` is its row's match with the operand in the low bits (30_encoding.md R84, R88). -/
theorem encodeWord_eq_pattern_or {i : Instr} (ha : i.a16 = 0#16) : encodeWord i = i.op.pattern ||| i.a32.setWidth 64 := by
  rw [encodeWord, ha, ofFields_eq_or, Op.pattern_eq_ofFields]

/-- The words of a command without `A16`, from the legality of its word and the row's reading of its operands. -/
theorem hasWords_pattern_or {i : Instr} (hl : Laws.EncodeLegal.Statement i) (hw : i.wellFormed = true) (ha : i.a16 = 0#16)
    (hi : i.op.instr (encodeWord i) i.din = i) : HasWords i (i.op.pattern ||| i.a32.setWidth 64) i.din := by
  obtain ⟨hd, hn⟩ := hl hw
  have hdec : decodeCommand (encodeWord i) i.din = .ok i := by rw [decodeCommand_of_ok hd hn, hi]
  rw [← encodeWord_eq_pattern_or ha]
  exact ⟨rfl, hdec⟩

/-- The words of a command whose row uses no bit of `A32`: the row's match and an empty `DIN`. -/
theorem hasWords_of_noOperand {i : Instr} (h : i.op.a32Bits = 0) : HasWords i i.op.pattern [] := by
  cases i with
  | alloc _ | load _ | wrv _ | wrcc _ | wrpt _ | wrseq _ | wrts _ | wrssrc _ | wrcsrc _ | xput _ _ => exact absurd h (Nat.succ_ne_zero _)
  | ser | free | rdv | rdp | rdx | rdcc | rdm | rdpt | rdseq | rdts | rdssrc | rdcsrc | setp | setx | setm | clrp | clrx | clrm
  | hlen | plen | pview | xprof | xview => exact ⟨rfl, rfl⟩

/-- A row's word whose `A32` exceeds the row's operand is refused (30_encoding.md R84, R89). -/
theorem refusedWord_of_operand_range (o : Op) {x : Word} (hx : 2 ^ o.a32Bits ≤ x.toNat) :
    RefusedWord (CmdWord.ofFields o.opc 0#8 0#16 x) := by
  have hrow : Op.ofOpc (CmdWord.ofFields o.opc 0#8 0#16 x).opc = some o := by rw [CmdWord.opc_ofFields, Op.ofOpc_opc]
  obtain ⟨e, he⟩ := (decodeWord_error_iff_of_row hrow).mpr (.inr (.inr (by rwa [CmdWord.a32_ofFields])))
  exact refusedWord_of_error he

/-! ## The common prologue -/

/-- A command whose meaning is behind the prologue has the prologue's two exceptions. -/
theorem needsPacket_of_exec {i : Instr} {s body : State} (h : exec i s = .next (withPacket s body)) : NeedsPacket i s := by
  constructor
  · intro hf
    rw [AnswersOnly, h, withPacket_faulted hf]
    rfl
  · intro hf hv
    rw [AnswersOnly, h, withPacket_noPacket hf hv]
    rfl

/-- EVERY COMMAND THAT NEEDS A PACKET HAS THE EXCEPTIONS OF THE PROLOGUE (60_exceptions.md R220). -/
theorem needsPacket_of_wellFormed {i : Instr} (hw : i.wellFormed = true) (hc : createsPacket i = false) (s : State) :
    NeedsPacket i s := by
  cases i with
  | alloc _ | load _ => cases hc
  | wrcsrc entries =>
    have hl : ¬ 15 < entries.length := Nat.not_lt.mpr (of_decide_eq_true hw)
    exact needsPacket_of_exec (congrArg Host.Outcome.next (if_neg hl))
  | ser | free | rdv | rdp | rdx | rdcc | rdm | rdpt | rdseq | rdts | rdssrc | rdcsrc | wrv _ | setp | setx | wrcc _ | setm
  | wrpt _ | wrseq _ | wrts _ | wrssrc _ | clrp | clrx | clrm | hlen | plen | pview | xprof | xview | xput _ _ =>
    exact needsPacket_of_exec rfl

/-- The same for the commands of a list. -/
theorem needsPacket_of_all {is : List Instr} (h : is.all (fun i => i.wellFormed && !createsPacket i) = true) (s : State) :
    ∀ i ∈ is, NeedsPacket i s := by
  intro i hi
  have hwc := List.all_eq_true.mp h i hi
  simp only [Bool.and_eq_true, Bool.not_eq_true'] at hwc
  exact needsPacket_of_wellFormed hwc.1 hwc.2 s

/-! ## The two bodies -/

/-- A getter's answer. -/
theorem answersOnly_of_value {i : Instr} {s : State} {v w : Word} (h : exec i s = .next (withPacket s (s.value v)))
    (hr : Ready s) (hv : v = w) : AnswersOnly i s .ok w [] := by
  rw [AnswersOnly, h, withPacket_ready hr, hv]
  rfl

/-- A setter's answer and frame. -/
theorem writes_of_store {i : Instr} {s : State} {a : Nat} {bs : List Byte} {P : State → Prop}
    (h : exec i s = .next (withPacket s (s.store a bs).done)) (hr : Ready s) (hP : P (s.store a bs).done) :
    Writes i s a bs.length P := by
  refine ⟨(s.store a bs).done, ?_, rfl, ⟨rfl, rfl, rfl, rfl, rfl, rfl, rfl, rfl⟩, ?_, hP⟩
  · rw [h, withPacket_ready hr]
  · intro x hx
    exact State.byte_store_outside s a bs hx

/-- The same for a setter of one byte. -/
theorem writes_of_storeByte {i : Instr} {s : State} {a : Nat} {b c : Byte}
    (h : exec i s = .next (withPacket s (s.store a [b]).done)) (hr : Ready s) (hb : b = c) :
    Writes i s a 1 (fun t => t.byte a = c) := by
  refine writes_of_store h hr ?_
  rw [State.done_byte, State.byte_store_one, if_pos rfl, hb]

/-- A 16-bit value just stored is read back. -/
theorem rd16_store_be16 (s : State) (a : Nat) (v : Half) : rd16 (s.store a (be16 v)).byte a = v :=
  rd16_of_be16 (fun k hk => by
    rw [State.byte_store_inside s a (be16 v) hk]
    exact List.getElem?_eq_getElem hk)

/-- A 32-bit value just stored is read back. -/
theorem rd32_store_be32 (s : State) (a : Nat) (v : Word) : rd32 (s.store a (be32 v)).byte a = v :=
  rd32_of_be32 (fun k hk => by
    rw [State.byte_store_inside s a (be32 v) hk]
    exact List.getElem?_eq_getElem hk)

end Sys2Proof.Machine
end

section
/-! PROOF. The readers of the fixed header (40_fixed_fields.md R111 to R130): each is a getter behind the prologue, and the field
it extracts is the bits of its position. -/
namespace Sys2Proof.Machine

/-- Settles O16: each field is the bits of its position, `fV_eq` to `fPT_eq`. -/
theorem bitFieldReadsGiveTheField : Obligations.BitFieldReadsGiveTheField := by
  intro s
  refine ⟨needsPacket_of_all (by decide) s, fun hr => ⟨?_, ?_, ?_, ?_, ?_, ?_⟩, ?_, ?_, ?_, ?_, ?_, ?_⟩
  · exact answersOnly_of_value rfl hr (by rw [fV_eq, BitVec.setWidth_setWidth (by decide)])
  · exact answersOnly_of_value rfl hr (by rw [fP_eq, BitVec.setWidth_setWidth (by decide)])
  · exact answersOnly_of_value rfl hr (by rw [fX_eq, BitVec.setWidth_setWidth (by decide)])
  · exact answersOnly_of_value rfl hr (by rw [fCC_eq, BitVec.setWidth_setWidth (by decide)])
  · exact answersOnly_of_value rfl hr (by rw [fM_eq, BitVec.setWidth_setWidth (by decide)])
  · exact answersOnly_of_value rfl hr (by rw [fPT_eq, BitVec.setWidth_setWidth (by decide)])
  · exact hasWords_of_noOperand (i := .rdv) rfl
  · exact hasWords_of_noOperand (i := .rdp) rfl
  · exact hasWords_of_noOperand (i := .rdx) rfl
  · exact hasWords_of_noOperand (i := .rdcc) rfl
  · exact hasWords_of_noOperand (i := .rdm) rfl
  · exact hasWords_of_noOperand (i := .rdpt) rfl

/-- Settles O17: each value is `rd16` or `rd32`, whose numbers are `rd16_toNat` and `rd32_toNat`. -/
theorem wideFieldReadsAreBigEndian : Obligations.WideFieldReadsAreBigEndian := by
  intro s
  refine ⟨needsPacket_of_all (by decide) s, fun hr => ⟨?_, ?_, ?_⟩, ?_, ?_, ?_⟩
  · refine ⟨_, answersOnly_of_value rfl hr rfl, ?_⟩
    rw [BitVec.toNat_setWidth_of_le (by decide), rd16_toNat]
  · exact ⟨_, answersOnly_of_value rfl hr rfl, rd32_toNat _ _⟩
  · exact ⟨_, answersOnly_of_value rfl hr rfl, rd32_toNat _ _⟩
  · exact hasWords_of_noOperand (i := .rdseq) rfl
  · exact hasWords_of_noOperand (i := .rdts) rfl
  · exact hasWords_of_noOperand (i := .rdssrc) rfl

end Sys2Proof.Machine
end

section
/-! PROOF. The writers of the fixed header (40_fixed_fields.md R112 to R131): each is one store behind the prologue, of the byte
with its field replaced or of the operand's bytes. -/
namespace Sys2Proof.Machine

/-- Settles O18: each flag write is one byte with its bit replaced, `setPBit_eq` to `clrMBit_eq`. -/
theorem flagWritesChangeOneBit : Obligations.FlagWritesChangeOneBit := by
  intro s
  refine ⟨needsPacket_of_all (by decide) s, fun hr => ⟨?_, ?_, ?_, ?_, ?_, ?_⟩, ?_, ?_, ?_, ?_, ?_, ?_⟩
  · exact writes_of_storeByte rfl hr (setPBit_eq _)
  · exact writes_of_storeByte rfl hr (clrPBit_eq _)
  · exact writes_of_storeByte rfl hr (setXBit_eq _)
  · exact writes_of_storeByte rfl hr (clrXBit_eq _)
  · exact writes_of_storeByte rfl hr (setMBit_eq _)
  · exact writes_of_storeByte rfl hr (clrMBit_eq _)
  · exact hasWords_of_noOperand (i := .setp) rfl
  · exact hasWords_of_noOperand (i := .clrp) rfl
  · exact hasWords_of_noOperand (i := .setx) rfl
  · exact hasWords_of_noOperand (i := .clrx) rfl
  · exact hasWords_of_noOperand (i := .setm) rfl
  · exact hasWords_of_noOperand (i := .clrm) rfl

/-! ## Words with an operand -/

/-- The row's reading of `A32` gives an operand of `n` bits back. -/
theorem setWidth_a32_encodeWord {n : Nat} {i : Instr} {v : BitVec n} (hv : i.a32 = v.setWidth 32) (hn : n ≤ 32) :
    (encodeWord i).a32.setWidth n = v := by
  rw [Laws.EncodeLegal.a32_encodeWord, hv, BitVec.setWidth_setWidth_of_le v hn, BitVec.setWidth_eq]

/-- The words of a command whose operand is narrower than `A32`. -/
theorem hasWords_of_narrowOperand {n : Nat} {i : Instr} {v : BitVec n} (hl : Laws.EncodeLegal.Statement i)
    (hw : i.wellFormed = true) (ha : i.a16 = 0#16) (hv : i.a32 = v.setWidth 32) (hn : n ≤ 32)
    (hi : i.op.instr (encodeWord i) i.din = i) : HasWords i (i.op.pattern ||| v.setWidth 64) i.din := by
  have hword := hasWords_pattern_or hl hw ha hi
  rwa [hv, BitVec.setWidth_setWidth (by omega)] at hword

theorem hasWords_wrv (v : BitVec 2) : HasWords (.wrv v) (0x2000000000000000#64 ||| v.setWidth 64) [] :=
  hasWords_of_narrowOperand (Laws.EncodeLegal.wrv v) rfl rfl rfl (by decide)
    (congrArg Instr.wrv (setWidth_a32_encodeWord rfl (by decide)))

theorem hasWords_wrpt (v : BitVec 7) : HasWords (.wrpt v) (0x2500000000000000#64 ||| v.setWidth 64) [] :=
  hasWords_of_narrowOperand (Laws.EncodeLegal.wrpt v) rfl rfl rfl (by decide)
    (congrArg Instr.wrpt (setWidth_a32_encodeWord rfl (by decide)))

theorem hasWords_wrseq (v : Half) : HasWords (.wrseq v) (0x2600000000000000#64 ||| v.setWidth 64) [] :=
  hasWords_of_narrowOperand (Laws.EncodeLegal.wrseq v) rfl rfl rfl (by decide)
    (congrArg Instr.wrseq (setWidth_a32_encodeWord rfl (by decide)))

theorem hasWords_wrcc (v : Word) : HasWords (.wrcc v) (0x2300000000000000#64 ||| v.setWidth 64) [] :=
  hasWords_pattern_or (Laws.EncodeLegal.wrcc v) rfl rfl (congrArg Instr.wrcc (Laws.EncodeLegal.a32_encodeWord _))

theorem hasWords_wrts (v : Word) : HasWords (.wrts v) (0x2700000000000000#64 ||| v.setWidth 64) [] :=
  hasWords_pattern_or (Laws.EncodeLegal.wrts v) rfl rfl (congrArg Instr.wrts (Laws.EncodeLegal.a32_encodeWord _))

theorem hasWords_wrssrc (v : Word) : HasWords (.wrssrc v) (0x2800000000000000#64 ||| v.setWidth 64) [] :=
  hasWords_pattern_or (Laws.EncodeLegal.wrssrc v) rfl rfl (congrArg Instr.wrssrc (Laws.EncodeLegal.a32_encodeWord _))

/-- Settles O19: `putV_eq`, `putCC_eq` and `putPT_eq` say the field is replaced; an operand out of range is no row's word. -/
theorem bitFieldWritesReplaceTheField : Obligations.BitFieldWritesReplaceTheField := by
  refine ⟨fun s v => ⟨?_, ?_, hasWords_wrv v⟩, fun s v => ⟨?_, ?_, hasWords_wrcc v⟩, fun s v => ⟨?_, ?_, hasWords_wrpt v⟩,
    ?_, ?_⟩
  · exact needsPacket_of_wellFormed rfl rfl s
  · exact fun hr => writes_of_storeByte rfl hr (putV_eq _ v)
  · exact needsPacket_of_wellFormed rfl rfl s
  · exact fun hr => writes_of_storeByte rfl hr (putCC_eq _ v)
  · exact needsPacket_of_wellFormed rfl rfl s
  · exact fun hr => writes_of_storeByte rfl hr (putPT_eq _ v)
  · exact fun x hx => refusedWord_of_operand_range .wrv hx
  · exact fun x hx => refusedWord_of_operand_range .wrpt hx

/-- A setter of two bytes leaves its operand as their big-endian number. -/
theorem writes_of_storeHalf {i : Instr} {s : State} {a : Nat} {v : Half}
    (h : exec i s = .next (withPacket s (s.store a (be16 v)).done)) (hr : Ready s) :
    Writes i s a 2 (fun t => 256 * (t.byte a).toNat + (t.byte (a + 1)).toNat = v.toNat) := by
  refine writes_of_store h hr ?_
  simp only [State.done_byte]
  rw [← rd16_toNat, rd16_store_be16]

/-- A setter of four bytes leaves its operand as their big-endian number. -/
theorem writes_of_storeWord {i : Instr} {s : State} {a : Nat} {v : Word}
    (h : exec i s = .next (withPacket s (s.store a (be32 v)).done)) (hr : Ready s) :
    Writes i s a 4 (fun t => 16777216 * (t.byte a).toNat + 65536 * (t.byte (a + 1)).toNat + 256 * (t.byte (a + 2)).toNat +
      (t.byte (a + 3)).toNat = v.toNat) := by
  refine writes_of_store h hr ?_
  simp only [State.done_byte]
  rw [← rd32_toNat, rd32_store_be32]

/-- Settles O20: the bytes stored are read back as the operand, and `rd16_toNat`, `rd32_toNat` give their number. -/
theorem wideFieldWritesAreBigEndian : Obligations.WideFieldWritesAreBigEndian := by
  refine ⟨fun s v => ⟨?_, ?_, hasWords_wrseq v⟩, fun s v => ⟨?_, ?_, hasWords_wrts v⟩, fun s v => ⟨?_, ?_, hasWords_wrssrc v⟩,
    ?_⟩
  · exact needsPacket_of_wellFormed rfl rfl s
  · exact fun hr => writes_of_storeHalf rfl hr
  · exact needsPacket_of_wellFormed rfl rfl s
  · exact fun hr => writes_of_storeWord rfl hr
  · exact needsPacket_of_wellFormed rfl rfl s
  · exact fun hr => writes_of_storeWord rfl hr
  · exact fun x hx => refusedWord_of_operand_range .wrseq hx

end Sys2Proof.Machine
end

section
/-! PROOF. The writers of the fixed header bit by bit (40_fixed_fields.md R133): a masked write keeps the bits its masks keep, and
a store keeps every byte outside it. -/
namespace Sys2Proof.Machine

/-! ## Masks -/

section
variable {b m n : Byte} {j : Nat} {own : Nat → Prop}

/-- A masked write keeps a bit that is not its own: the first mask has it and the second has not. -/
theorem getLsbD_and_or (hm : ∀ k < 8, ¬ own k → m.getLsbD k = true) (hn : ∀ k < 8, ¬ own k → n.getLsbD k = false)
    (h : ¬ own j) : ((b &&& m) ||| n).getLsbD j = b.getLsbD j := by
  by_cases hj : j < 8
  · simp [hm j hj h, hn j hj h]
  · rw [BitVec.getLsbD_of_ge _ _ (by omega), BitVec.getLsbD_of_ge _ _ (by omega)]

/-- Setting bits of its own. -/
theorem getLsbD_or_mask (hn : ∀ k < 8, ¬ own k → n.getLsbD k = false) (h : ¬ own j) : (b ||| n).getLsbD j = b.getLsbD j := by
  have hall : ∀ k < 8, ¬ own k → (BitVec.allOnes 8).getLsbD k = true :=
    fun k hk _ => BitVec.getLsbD_allOnes.trans (decide_eq_true hk)
  have hb := getLsbD_and_or (b := b) hall hn h
  rwa [BitVec.and_allOnes] at hb

/-- Clearing bits of its own. -/
theorem getLsbD_and_mask (hm : ∀ k < 8, ¬ own k → m.getLsbD k = true) (h : ¬ own j) : (b &&& m).getLsbD j = b.getLsbD j := by
  have hb := getLsbD_and_or (b := b) (n := 0#8) hm (fun _ _ _ => BitVec.getLsbD_zero) h
  rwa [BitVec.or_zero] at hb

end

theorem putV_getLsbD (b : Byte) (v : BitVec 2) {j : Nat} (h : ¬ (j = 6 ∨ j = 7)) : (putV b v).getLsbD j = b.getLsbD j := by
  refine getLsbD_and_or (own := fun k => k = 6 ∨ k = 7) (by decide) (fun k hk hown => ?_) h
  have hlow : k < 6 := by omega
  simp [hlow]

theorem putCC_getLsbD (b : Byte) (v : Word) {j : Nat} (h : ¬ j < 4) : (putCC b v).getLsbD j = b.getLsbD j := by
  have hmask : ∀ k < 8, ¬ k < 4 → (0x0F#8).getLsbD k = false := by decide
  refine getLsbD_and_or (own := fun k => k < 4) (by decide) (fun k hk hown => ?_) h
  rw [BitVec.getLsbD_and, hmask k hk hown, Bool.and_false]

theorem putPT_getLsbD (b : Byte) (v : BitVec 7) {j : Nat} (h : ¬ j < 7) : (putPT b v).getLsbD j = b.getLsbD j := by
  refine getLsbD_and_or (own := fun k => k < 7) (by decide) (fun k hk hown => ?_) h
  rw [BitVec.getLsbD_setWidth, BitVec.getLsbD_of_ge v k (by omega), Bool.and_false]

theorem setPBit_getLsbD (b : Byte) {j : Nat} (h : j ≠ 5) : (setPBit b).getLsbD j = b.getLsbD j :=
  getLsbD_or_mask (own := fun k => k = 5) (by decide) h

theorem clrPBit_getLsbD (b : Byte) {j : Nat} (h : j ≠ 5) : (clrPBit b).getLsbD j = b.getLsbD j :=
  getLsbD_and_mask (own := fun k => k = 5) (by decide) h

theorem setXBit_getLsbD (b : Byte) {j : Nat} (h : j ≠ 4) : (setXBit b).getLsbD j = b.getLsbD j :=
  getLsbD_or_mask (own := fun k => k = 4) (by decide) h

theorem clrXBit_getLsbD (b : Byte) {j : Nat} (h : j ≠ 4) : (clrXBit b).getLsbD j = b.getLsbD j :=
  getLsbD_and_mask (own := fun k => k = 4) (by decide) h

theorem setMBit_getLsbD (b : Byte) {j : Nat} (h : j ≠ 7) : (setMBit b).getLsbD j = b.getLsbD j :=
  getLsbD_or_mask (own := fun k => k = 7) (by decide) h

theorem clrMBit_getLsbD (b : Byte) {j : Nat} (h : j ≠ 7) : (clrMBit b).getLsbD j = b.getLsbD j :=
  getLsbD_and_mask (own := fun k => k = 7) (by decide) h

/-! ## Stores behind the prologue -/

section
variable {i : Instr} {s t : State} {a : Nat} (ht : exec i s = .next t)
include ht

/-- A setter, whatever the prologue answers, keeps every byte outside its store. -/
theorem byte_of_exec_store {bs : List Byte} (h : exec i s = .next (withPacket s (s.store a bs).done)) {x : Nat}
    (hx : x < a ∨ a + bs.length ≤ x) : t.byte x = s.byte x := by
  cases h.symm.trans ht
  rcases withPacket_cases s (s.store a bs).done with ⟨_, e⟩ | ⟨_, _, e⟩ | ⟨_, e⟩ <;> rw [e]
  · rfl
  · rfl
  · exact State.byte_store_outside s a bs hx

/-- A setter of one byte keeps, at every offset, a bit that the byte it stores has kept. -/
theorem getLsbD_of_exec_storeByte {b : Byte} (h : exec i s = .next (withPacket s (s.store a [b]).done)) {x j : Nat}
    (hb : x = a → b.getLsbD j = (s.byte a).getLsbD j) : (t.byte x).getLsbD j = (s.byte x).getLsbD j := by
  by_cases hx : x = a
  · subst hx
    cases h.symm.trans ht
    rcases withPacket_cases s (s.store x [b]).done with ⟨_, e⟩ | ⟨_, _, e⟩ | ⟨_, e⟩ <;> rw [e]
    · rfl
    · rfl
    · rw [State.done_byte, State.byte_store_one, if_pos rfl]
      exact hb rfl
  · rw [byte_of_exec_store ht h (by rw [List.length_singleton]; omega)]

end

/-- Settles O22: the commands of bytes 0 and 1 keep the other bits by their masks, those of bytes 2 to 11 write their own bytes
alone, and every bit is a bit of the other commands' own. -/
theorem fieldWritesDisturbNoOtherBit : Obligations.FieldWritesDisturbNoOtherBit := by
  intro i s t ht a j hown
  cases i with
  | wrv v => exact getLsbD_of_exec_storeByte ht rfl (fun ha => putV_getLsbD _ v (fun hj => hown ⟨ha, hj⟩))
  | wrcc v => exact getLsbD_of_exec_storeByte ht rfl (fun ha => putCC_getLsbD _ v (fun hj => hown ⟨ha, hj⟩))
  | wrpt v => exact getLsbD_of_exec_storeByte ht rfl (fun ha => putPT_getLsbD _ v (fun hj => hown ⟨ha, hj⟩))
  | setp => exact getLsbD_of_exec_storeByte ht rfl (fun ha => setPBit_getLsbD _ (fun hj => hown ⟨ha, hj⟩))
  | clrp => exact getLsbD_of_exec_storeByte ht rfl (fun ha => clrPBit_getLsbD _ (fun hj => hown ⟨ha, hj⟩))
  | setx => exact getLsbD_of_exec_storeByte ht rfl (fun ha => setXBit_getLsbD _ (fun hj => hown ⟨ha, hj⟩))
  | clrx => exact getLsbD_of_exec_storeByte ht rfl (fun ha => clrXBit_getLsbD _ (fun hj => hown ⟨ha, hj⟩))
  | setm => exact getLsbD_of_exec_storeByte ht rfl (fun ha => setMBit_getLsbD _ (fun hj => hown ⟨ha, hj⟩))
  | clrm => exact getLsbD_of_exec_storeByte ht rfl (fun ha => clrMBit_getLsbD _ (fun hj => hown ⟨ha, hj⟩))
  | wrseq v =>
    have hout : ¬ (a = 2 ∨ a = 3) := hown
    rw [byte_of_exec_store ht rfl (by rw [be16_length]; omega)]
  | wrts v =>
    have hout : ¬ (4 ≤ a ∧ a < 8) := hown
    rw [byte_of_exec_store ht rfl (by rw [be32_length]; omega)]
  | wrssrc v =>
    have hout : ¬ (8 ≤ a ∧ a < 12) := hown
    rw [byte_of_exec_store ht rfl (by rw [be32_length]; omega)]
  | alloc _ | load _ | ser | free | rdv | rdp | rdx | rdcc | rdm | rdpt | rdseq | rdts | rdssrc | rdcsrc | wrcsrc _ | hlen | plen
  | pview | xprof | xview | xput _ _ => exact absurd trivial hown

end Sys2Proof.Machine
end

section
/-! PROOF. The CSRC list (41_csrc.md R150, R151): `RDCSRC` gives the count and the region behind the guard, `WRCSRC` stores both
behind its own. -/
namespace Sys2Proof.Machine

/-! ## Fault entry and an answer with bytes, behind the prologue -/

/-- A body that is fault entry. -/
theorem takesFault_of_raiseBounds {i : Instr} {s body : State} (h : exec i s = .next (withPacket s body)) (hr : Ready s)
    (hb : body = s.raiseBounds) : TakesFault i s := by
  rw [TakesFault, h, withPacket_ready hr, hb]
  rfl

/-- A body that is an answer. -/
theorem answersOnly_of_respond {i : Instr} {s body : State} {v : Word} {d : List Byte}
    (h : exec i s = .next (withPacket s body)) (hr : Ready s) (hb : body = s.respond .ok v d) : AnswersOnly i s .ok v d := by
  rw [AnswersOnly, h, withPacket_ready hr, hb]
  rfl

theorem isBytesAt_bytes (s : State) (a n : Nat) : IsBytesAt s a n (s.bytes a n) :=
  ⟨State.bytes_length s a n, fun _ hk => State.bytes_getElem? s a n hk⟩

/-! ## `RDCSRC` -/

theorem State.cc_eq_csrcCount (s : State) : s.cc = csrcCount s.byte := ccOf_eq_csrcCount s.byte

/-- The count fits `VAL`. -/
theorem toNat_ofNat_csrcCount (rd : Nat → Byte) : (BitVec.ofNat 32 (csrcCount rd)).toNat = csrcCount rd := by
  have hle := csrcCount_le rd
  exact Nat.mod_eq_of_lt (by omega)

section
variable {s : State} (hr : Ready s)
include hr

theorem rdcsrc_takesFault (hl : s.len.toNat < 12 + 4 * csrcCount s.byte) : TakesFault .rdcsrc s :=
  takesFault_of_raiseBounds rfl hr (by rw [State.cc_eq_csrcCount, State.memReadBytes_eq_none hl])

theorem rdcsrc_answersOnly (hl : 12 + 4 * csrcCount s.byte ≤ s.len.toNat) :
    AnswersOnly .rdcsrc s .ok (BitVec.ofNat 32 (csrcCount s.byte)) (s.bytes 12 (4 * csrcCount s.byte)) :=
  answersOnly_of_respond rfl hr (by rw [State.cc_eq_csrcCount, State.memReadBytes_eq_some hl])

end

/-- Settles O23: the region is read whole behind its guard, and four of its bytes make an entry. -/
theorem rdcsrcGivesTheList : Obligations.RdcsrcGivesTheList := by
  intro s
  refine ⟨needsPacket_of_wellFormed rfl rfl s, hasWords_of_noOperand (i := .rdcsrc) rfl, rdcsrc_takesFault, fun hr hl => ?_⟩
  obtain ⟨hlength, hget⟩ := isBytesAt_bytes s 12 (4 * csrcCount s.byte)
  exact ⟨_, _, rdcsrc_answersOnly hr hl, toNat_ofNat_csrcCount s.byte, ⟨hlength, hget⟩, bytesToEntries_length hlength,
    fun _ hk => bytesToEntries_getElem? hlength hget hk⟩

/-! ## `WRCSRC` -/

/-- The two stores of `WRCSRC`: the count in byte 0, then the list. -/
def State.storeCsrc (s : State) (entries : List Word) : State :=
  (s.store 0 [putCC (s.byte 0) (BitVec.ofNat 32 entries.length)]).store 12 (entriesToBytes entries)

/-- Byte 0 lies outside the list: its low bits are the count, the others are kept. -/
theorem State.storeCsrc_byte_zero (s : State) (entries : List Word) :
    (s.storeCsrc entries).byte 0 = (s.byte 0).extractLsb' 4 4 ++ BitVec.ofNat 4 entries.length := by
  have hcount : (BitVec.ofNat 32 entries.length).extractLsb' 0 4 = BitVec.ofNat 4 entries.length := by
    rw [← BitVec.setWidth_eq_extractLsb' (by decide), BitVec.setWidth_ofNat_of_le (by decide)]
  rw [State.storeCsrc, State.byte_store_outside _ _ _ (.inl (by decide)), State.byte_store_one, if_pos rfl, putCC_eq, hcount]

/-- Entry `k` stands at `12 + 4k`. -/
theorem State.storeCsrc_rd32 (s : State) (entries : List Word) {k : Nat} (hk : k < entries.length) :
    rd32 (s.storeCsrc entries).byte (12 + 4 * k) = entries[k] := by
  refine rd32_of_be32 fun j hj => ?_
  have hin : 4 * k + j < (entriesToBytes entries).length := by rw [entriesToBytes_length]; omega
  rw [State.storeCsrc, Nat.add_assoc, State.byte_store_inside _ _ _ hin, ← entriesToBytes_getElem? entries hk hj]
  exact List.getElem?_eq_getElem hin

/-- Neither store reaches another byte. -/
theorem State.storeCsrc_byte_other (s : State) (entries : List Word) {a : Nat} (h0 : a ≠ 0)
    (h : a < 12 ∨ 12 + 4 * entries.length ≤ a) : (s.storeCsrc entries).byte a = s.byte a := by
  rw [State.storeCsrc, State.byte_store_outside _ _ _ (by rwa [entriesToBytes_length]), State.byte_store_one, if_neg h0]

section
variable {entries : List Word} (hn : entries.length ≤ 15)
include hn

theorem wellFormed_wrcsrc : (Instr.wrcsrc entries).wellFormed = true := decide_eq_true hn

/-- The meaning of a `WRCSRC` that has a command word. -/
theorem exec_wrcsrc (s : State) : exec (.wrcsrc entries) s = .next (withPacket s (
    if s.guard 12 (4 * entries.length) then (s.storeCsrc entries).done else s.raiseBounds)) :=
  congrArg Host.Outcome.next (if_neg (Nat.not_lt.mpr hn))

theorem hasWords_wrcsrc : HasWords (.wrcsrc entries) (0x2900000000000000#64 ||| BitVec.ofNat 64 entries.length)
    (entriesToBytes entries) := by
  have hword : HasWords (.wrcsrc entries) (0x2900000000000000#64 ||| (BitVec.ofNat 32 entries.length).setWidth 64)
      (entriesToBytes entries) :=
    hasWords_pattern_or (Laws.EncodeLegal.wrcsrc entries) (wellFormed_wrcsrc hn) rfl
      (congrArg Instr.wrcsrc (bytesToEntries_entriesToBytes entries))
  rwa [BitVec.setWidth_ofNat_of_le_of_lt (by decide) (by omega)] at hword

variable {s : State} (hr : Ready s)
include hr

theorem wrcsrc_takesFault (hl : s.len.toNat < 12 + 4 * entries.length) : TakesFault (.wrcsrc entries) s :=
  takesFault_of_raiseBounds (exec_wrcsrc hn s) hr (if_neg (by rw [State.guard_eq_true]; omega))

theorem exec_wrcsrc_of_fits (hl : 12 + 4 * entries.length ≤ s.len.toNat) :
    exec (.wrcsrc entries) s = .next (s.storeCsrc entries).done := by
  rw [exec_wrcsrc hn, withPacket_ready hr, if_pos (State.guard_eq_true.mpr hl)]

end

/-- Settles O24: the guard decides between fault entry and the two stores `State.storeCsrc`; a count above 15 is no row's word. -/
theorem wrcsrcWritesCountAndList : Obligations.WrcsrcWritesCountAndList := by
  refine ⟨fun s entries hn => ⟨?_, hasWords_wrcsrc hn, wrcsrc_takesFault hn, fun hr hl => ?_⟩, ?_⟩
  · exact needsPacket_of_wellFormed (wellFormed_wrcsrc hn) rfl s
  · refine ⟨_, exec_wrcsrc_of_fits hn hr hl, rfl, ⟨rfl, rfl, rfl, rfl, rfl, rfl, rfl, rfl⟩, ?_, fun k hk => ?_, fun a h0 ha => ?_⟩
    · exact s.storeCsrc_byte_zero entries
    · exact (List.getElem?_eq_getElem hk).trans (congrArg some (s.storeCsrc_rd32 entries hk).symm)
    · exact s.storeCsrc_byte_other entries h0 ha
  · exact fun x hx => refusedWord_of_operand_range .wrcsrc hx

end Sys2Proof.Machine
end

section
/-! PROOF. The derived lengths (42_derived.md R160 to R162): `hlen()` is the declared header length unless the word count is out of
reach, and `PLEN` and `PVIEW` compare it with `LEN`. -/
namespace Sys2Proof.Machine

/-! ## `hlen()` against the declared header -/

/-- A header that ends inside the buffer has its word count inside. -/
theorem DeclaresHeader.not_countOutOfReach {rd : Nat → Byte} {h len : Nat} (hd : DeclaresHeader rd h) (hl : h ≤ len) :
    ¬ CountOutOfReach rd len := by
  rintro ⟨hx, hlt⟩
  rcases hd with ⟨_, rfl⟩ | ⟨hnx, _⟩
  · unfold extensionOffset at hlt
    omega
  · exact hnx hx

theorem State.hlen_eq_some {s : State} {h : Nat} (hc : ¬ CountOutOfReach s.byte s.len.toNat) (hd : DeclaresHeader s.byte h) :
    s.hlen = some h := by
  obtain ⟨n, hn, hdn⟩ := headerLength_eq_some hc
  rw [State.hlen, hn, hdn.unique hd]

/-- The two ways a buffer is malformed for `PLEN` and `PVIEW` (60_exceptions.md R213), by what `hlen()` gives. -/
theorem State.hlen_of_malformed {s : State} (hm : BoundsFault .plen s) :
    s.hlen = none ∨ ∃ h, s.hlen = some h ∧ s.len.toNat < h := by
  by_cases hc : CountOutOfReach s.byte s.len.toNat
  · exact .inl (headerLength_eq_none hc)
  · obtain ⟨h, hd, hlt⟩ := hm.resolve_left hc
    exact .inr ⟨h, State.hlen_eq_some hc hd, hlt⟩

theorem State.hlen_of_fits {s : State} {h : Nat} (hd : DeclaresHeader s.byte h) (hl : h ≤ s.len.toNat) : s.hlen = some h :=
  State.hlen_eq_some (hd.not_countOutOfReach hl) hd

theorem State.plen_of_malformed {s : State} (hm : BoundsFault .plen s) : s.plen = none := by
  rcases State.hlen_of_malformed hm with hn | ⟨h, hs, hlt⟩
  · rw [State.plen, hn]
  · simp only [State.plen, hs]
    exact if_neg (Nat.not_le.mpr hlt)

theorem State.plen_of_fits {s : State} {h : Nat} (hd : DeclaresHeader s.byte h) (hl : h ≤ s.len.toNat) :
    s.plen = some (s.len.toNat - h) := by
  simp only [State.plen, State.hlen_of_fits hd hl]
  exact if_pos hl

/-- A declared header length fits `VAL` (00_scope.md R6). -/
theorem DeclaresHeader.toNat_ofNat {rd : Nat → Byte} {h : Nat} (hd : DeclaresHeader rd h) : (BitVec.ofNat 32 h).toNat = h := by
  have hle := hd.le
  exact Nat.mod_eq_of_lt (by omega)

/-- A payload length fits `VAL`, as `LEN` does. -/
theorem toNat_ofNat_len_sub (len : Word) (h : Nat) : (BitVec.ofNat 32 (len.toNat - h)).toNat = len.toNat - h :=
  Nat.mod_eq_of_lt (lt_of_le_of_lt (Nat.sub_le _ _) len.isLt)

/-! ## The commands past the prologue -/

section
variable {s : State} (hr : Ready s)
include hr

theorem hlen_takesFault (hc : CountOutOfReach s.byte s.len.toNat) : TakesFault .hlen s :=
  takesFault_of_raiseBounds rfl hr (by rw [State.hlen, headerLength_eq_none hc])

theorem hlen_answersOnly {h : Nat} (hc : ¬ CountOutOfReach s.byte s.len.toNat) (hd : DeclaresHeader s.byte h) :
    AnswersOnly .hlen s .ok (BitVec.ofNat 32 h) [] :=
  answersOnly_of_respond rfl hr (by rw [State.hlen_eq_some hc hd]; rfl)

theorem plen_takesFault (hm : BoundsFault .plen s) : TakesFault .plen s :=
  takesFault_of_raiseBounds rfl hr (by rw [State.plen_of_malformed hm])

theorem plen_answersOnly {h : Nat} (hd : DeclaresHeader s.byte h) (hl : h ≤ s.len.toNat) :
    AnswersOnly .plen s .ok (BitVec.ofNat 32 (s.len.toNat - h)) [] :=
  answersOnly_of_respond rfl hr (by rw [State.plen_of_fits hd hl]; rfl)

theorem pview_takesFault (hm : BoundsFault .pview s) : TakesFault .pview s := by
  refine takesFault_of_raiseBounds rfl hr ?_
  rcases State.hlen_of_malformed hm with hn | ⟨h, hs, hlt⟩
  · rw [hn]
  · simp only [hs]
    exact if_pos hlt

/-- The payload read never fails: it ends at `LEN`, also when it is empty. -/
theorem pview_answersOnly {h : Nat} (hd : DeclaresHeader s.byte h) (hl : h ≤ s.len.toNat) :
    AnswersOnly .pview s .ok (BitVec.ofNat 32 (s.len.toNat - h)) (s.bytes h (s.len.toNat - h)) := by
  refine answersOnly_of_respond rfl hr ?_
  have hread : s.memReadBytes h (s.len.toNat - h) = some (s.bytes h (s.len.toNat - h)) :=
    State.memReadBytes_eq_some (by omega)
  simp only [State.hlen_of_fits hd hl, hread]
  exact if_neg (Nat.not_lt.mpr hl)

end

/-- Settles O26: `hlen()` fails only when the word count is out of reach, and what it gives fits `VAL`. -/
theorem hlenGivesTheDeclaredLength : Obligations.HlenGivesTheDeclaredLength := by
  intro s
  refine ⟨needsPacket_of_wellFormed rfl rfl s, hasWords_of_noOperand (i := .hlen) rfl, hlen_takesFault, fun hr hc => ?_⟩
  obtain ⟨h, _, hd⟩ := headerLength_eq_some hc
  exact ⟨_, hlen_answersOnly hr hc hd, by rwa [hd.toNat_ofNat]⟩

/-- Settles O27: `plen()` fails on a malformed buffer in both ways, and otherwise is `LEN - h`. -/
theorem plenGivesTheRest : Obligations.PlenGivesTheRest := by
  intro s
  refine ⟨needsPacket_of_wellFormed rfl rfl s, hasWords_of_noOperand (i := .plen) rfl, fun hr hc => ?_, fun hr h hd hlt => ?_,
    fun hr h hd hl => ?_⟩
  · exact plen_takesFault hr (.inl hc)
  · exact plen_takesFault hr (.inr ⟨h, hd, hlt⟩)
  · exact ⟨_, plen_answersOnly hr hd hl, toNat_ofNat_len_sub s.len h⟩

/-- Settles O28: `PVIEW` faults as `PLEN` does, and otherwise its read of the payload succeeds. -/
theorem pviewGivesThePayload : Obligations.PviewGivesThePayload := by
  intro s
  refine ⟨needsPacket_of_wellFormed rfl rfl s, hasWords_of_noOperand (i := .pview) rfl, fun hr hc => ?_, fun hr h hd hlt => ?_,
    fun hr h hd hl => ?_⟩
  · exact pview_takesFault hr (.inl hc)
  · exact pview_takesFault hr (.inr ⟨h, hd, hlt⟩)
  · exact ⟨_, _, pview_answersOnly hr hd hl, toNat_ofNat_len_sub s.len h, isBytesAt_bytes s h _⟩

end Sys2Proof.Machine
end

section
/-! PROOF. Reading the extension (43_extension.md R171, R172): `XPROF` and `XVIEW` split on the flag and then on the guards of
what they read. -/
namespace Sys2Proof.Machine

/-! ## What the two readers look at, by the formulas of 20_memory.md R55 to R57 -/

theorem State.xoff_eq_extensionOffset (s : State) : s.xoff = extensionOffset s.byte := xoffOf_eq s.byte

theorem State.xflag_eq_false {s : State} (hx : ¬ hasExtension s.byte) : s.xflag = false :=
  Bool.eq_false_iff.mpr (fun h => hx (s.xflag_iff.mp h))

theorem State.memRead2_eq_some {s : State} {a : Nat} (h : a + 2 ≤ s.len.toNat) : s.memRead2 a = some (rd16 s.byte a) :=
  guardedRead16_eq_some h

theorem State.memRead2_eq_none {s : State} {a : Nat} (h : s.len.toNat < a + 2) : s.memRead2 a = none :=
  guardedRead16_eq_none h

theorem State.xwords_eq_some {s : State} (h : extensionOffset s.byte + 4 ≤ s.len.toNat) :
    s.xwords = some (rd16 s.byte (extensionOffset s.byte + 2)) := by
  rw [State.xwords, State.xoff_eq_extensionOffset, State.memRead2_eq_some h]

theorem State.xwords_eq_none {s : State} (h : s.len.toNat < extensionOffset s.byte + 4) : s.xwords = none := by
  rw [State.xwords, State.xoff_eq_extensionOffset, State.memRead2_eq_none h]

/-- The region's length fits `VAL` (43_extension.md R172: at most 262140). -/
theorem toNat_ofNat_regionLength (rd : Nat → Byte) : (BitVec.ofNat 32 (4 * wordCount rd)).toNat = 4 * wordCount rd := by
  have hlt : wordCount rd < 65536 := number16_lt rd _
  exact Nat.mod_eq_of_lt (by omega)

/-! ## The commands past the prologue -/

section
variable {s : State} (hr : Ready s)
include hr

theorem xprof_answersOnly_zero (hx : ¬ hasExtension s.byte) : AnswersOnly .xprof s .ok 0#32 [] :=
  answersOnly_of_respond rfl hr (by rw [State.xflag_eq_false hx]; rfl)

theorem xprof_takesFault (hx : hasExtension s.byte) (hl : s.len.toNat < extensionOffset s.byte + 2) : TakesFault .xprof s := by
  refine takesFault_of_raiseBounds rfl hr ?_
  rw [s.xflag_iff.mpr hx, State.xoff_eq_extensionOffset, State.memRead2_eq_none hl]
  rfl

theorem xprof_answersOnly (hx : hasExtension s.byte) (hl : extensionOffset s.byte + 2 ≤ s.len.toNat) :
    AnswersOnly .xprof s .ok ((rd16 s.byte (extensionOffset s.byte)).setWidth 32) [] := by
  refine answersOnly_of_respond rfl hr ?_
  rw [s.xflag_iff.mpr hx, State.xoff_eq_extensionOffset, State.memRead2_eq_some hl]
  rfl

theorem xview_answersOnly_empty (hx : ¬ hasExtension s.byte) : AnswersOnly .xview s .ok 0#32 [] :=
  answersOnly_of_respond rfl hr (by rw [State.xflag_eq_false hx]; rfl)

theorem xview_takesFault_of_count (hc : CountOutOfReach s.byte s.len.toNat) : TakesFault .xview s := by
  obtain ⟨hx, hl⟩ := hc
  refine takesFault_of_raiseBounds rfl hr ?_
  rw [s.xflag_iff.mpr hx, State.xwords_eq_none hl]
  rfl

/-- The region is out of reach: with the word count, or behind it. -/
theorem xview_takesFault_of_region (hx : hasExtension s.byte)
    (hl : s.len.toNat < extensionOffset s.byte + 4 + 4 * wordCount s.byte) : TakesFault .xview s := by
  by_cases hc : s.len.toNat < extensionOffset s.byte + 4
  · exact xview_takesFault_of_count hr ⟨hx, hc⟩
  · refine takesFault_of_raiseBounds rfl hr ?_
    simp only [s.xflag_iff.mpr hx, State.xwords_eq_some (Nat.le_of_not_lt hc), State.xoff_eq_extensionOffset,
      rd16_toNat_eq_number16, State.memReadBytes_eq_none hl]
    rfl

theorem xview_answersOnly (hx : hasExtension s.byte)
    (hl : extensionOffset s.byte + 4 + 4 * wordCount s.byte ≤ s.len.toNat) :
    AnswersOnly .xview s .ok (BitVec.ofNat 32 (4 * wordCount s.byte))
      (s.bytes (extensionOffset s.byte + 4) (4 * wordCount s.byte)) := by
  refine answersOnly_of_respond rfl hr ?_
  simp only [s.xflag_iff.mpr hx, State.xwords_eq_some (Nat.le_of_add_right_le hl), State.xoff_eq_extensionOffset,
    rd16_toNat_eq_number16, State.memReadBytes_eq_some hl]
  rfl

end

/-- Settles O30: past the flag the guard of the profile decides, and its number is `rd16_toNat_eq_number16`. -/
theorem xprofGivesTheProfile : Obligations.XprofGivesTheProfile := by
  intro s
  refine ⟨needsPacket_of_wellFormed rfl rfl s, hasWords_of_noOperand (i := .xprof) rfl, xprof_answersOnly_zero,
    xprof_takesFault, fun hr hx hl => ⟨_, xprof_answersOnly hr hx hl, ?_⟩⟩
  rw [BitVec.toNat_setWidth_of_le (by decide), rd16_toNat_eq_number16]

/-- Settles O31: past the flag the guards of the word count and of the region decide. -/
theorem xviewGivesTheRegion : Obligations.XviewGivesTheRegion := by
  intro s
  exact ⟨needsPacket_of_wellFormed rfl rfl s, hasWords_of_noOperand (i := .xview) rfl, xview_answersOnly_empty,
    xview_takesFault_of_count, xview_takesFault_of_region, fun hr hx hl =>
      ⟨_, _, xview_answersOnly hr hx hl, toNat_ofNat_regionLength s.byte, isBytesAt_bytes s _ _⟩⟩

end Sys2Proof.Machine
end

section
/-! PROOF. Writing the extension (43_extension.md R173, R174, R177): `XPUT` either exceeds the capacity and changes nothing, or
stores one block, whose four parts are read back one after the other. -/
namespace Sys2Proof.Machine

/-! ## Byte strings in `BUF` -/

theorem isBytesAt_store (s : State) (a : Nat) (bs : List Byte) : IsBytesAt (s.store a bs) a bs.length bs := by
  have h := isBytesAt_bytes (s.store a bs) a bs.length
  rwa [State.bytes_store] at h

/-- Two strings that stand together stand one after the other. -/
theorem isBytesAt_append {t : State} {a : Nat} {xs ys : List Byte} (h : IsBytesAt t a (xs ++ ys).length (xs ++ ys)) :
    IsBytesAt t a xs.length xs ∧ IsBytesAt t (a + xs.length) ys.length ys := by
  obtain ⟨_, hget⟩ := h
  rw [List.length_append] at hget
  refine ⟨⟨rfl, fun k hk => ?_⟩, rfl, fun k hk => ?_⟩
  · rw [← List.getElem?_append_left hk]
    exact hget k (by omega)
  · have hk' := hget (xs.length + k) (by omega)
    rwa [List.getElem?_append_right (by omega), Nat.add_sub_cancel_left, ← Nat.add_assoc] at hk'

/-- The number of a 16-bit value that stands in `BUF`. -/
theorem number16_of_isBytesAt {t : State} {a : Nat} {v : Half} (h : IsBytesAt t a 2 (be16 v)) :
    number16 t.byte a = v.toNat := by
  rw [← rd16_toNat_eq_number16, rd16_of_be16 h.2]

/-- Each byte of a run of equal bytes that stands in `BUF`. -/
theorem byte_of_isBytesAt_replicate {t : State} {a n k : Nat} {b : Byte}
    (h : IsBytesAt t a (List.replicate n b).length (List.replicate n b)) (hk : k < n) : t.byte (a + k) = b := by
  have hget := h.2 k (by rwa [List.length_replicate])
  rw [List.getElem?_replicate_of_lt hk] at hget
  exact (Option.some.inj hget).symm

/-! ## The block -/

/-- The extension block stands at `a`: profile, word count, data, zero padding (43_extension.md R173). -/
def HoldsBlock (t : State) (a : Nat) (profile : Half) (data : List Byte) : Prop :=
  number16 t.byte a = profile.toNat ∧ number16 t.byte (a + 2) = ceil4 data.length ∧
  IsBytesAt t (a + 4) data.length data ∧
  ∀ k, data.length ≤ k → k < 4 * ceil4 data.length → t.byte (a + 4 + k) = 0x00#8

/-- The bytes `XPUT` writes are the block: they are its four parts put together. -/
theorem holdsBlock_of_isBytesAt {t : State} {a : Nat} {profile : Half} {data : List Byte} (hn : ceil4 data.length ≤ 65535)
    (h : IsBytesAt t a (extensionBlock profile data).length (extensionBlock profile data)) : HoldsBlock t a profile data := by
  obtain ⟨hrest, hpad⟩ := isBytesAt_append h
  obtain ⟨hhead, hdata⟩ := isBytesAt_append hrest
  obtain ⟨hprofile, hcount⟩ := isBytesAt_append hhead
  refine ⟨number16_of_isBytesAt hprofile, ?_, hdata, fun k hlow hhigh => ?_⟩
  · exact (number16_of_isBytesAt hcount).trans (Nat.mod_eq_of_lt (by omega))
  · have hd := add_pad data.length
    have hzero := byte_of_isBytesAt_replicate hpad (k := k - data.length) (by omega)
    rwa [List.length_append, List.length_append, be16_length, be16_length,
      show a + (2 + 2 + data.length) + (k - data.length) = a + 4 + k by omega] at hzero

/-- The store of `XPUT`: the block where the CSRC list ends (43_extension.md R173). -/
def State.storeBlock (s : State) (profile : Half) (data : List Byte) : State :=
  s.store (extensionOffset s.byte) (extensionBlock profile data)

theorem State.storeBlock_holdsBlock (s : State) (profile : Half) {data : List Byte} (hn : ceil4 data.length ≤ 65535) :
    HoldsBlock (s.storeBlock profile data) (extensionOffset s.byte) profile data :=
  holdsBlock_of_isBytesAt hn (isBytesAt_store s _ _)

/-- The block lies behind the fixed header. -/
theorem State.storeBlock_byte_zero (s : State) (profile : Half) (data : List Byte) :
    (s.storeBlock profile data).byte 0 = s.byte 0 :=
  State.byte_store_outside s _ _ (.inl (by unfold extensionOffset; omega))

/-! ## `XPUT` past the prologue -/

/-- The block does not fit: its word count has no 16 bits (43_extension.md R177) or it ends behind `LEN` (R173). -/
abbrev ExceedsCapacity (s : State) (d : Nat) : Prop :=
  65535 < ceil4 d ∨ s.len.toNat < extensionOffset s.byte + 4 + 4 * ceil4 d

theorem not_exceedsCapacity_iff {s : State} {d : Nat} :
    ¬ ExceedsCapacity s d ↔ ceil4 d ≤ 65535 ∧ extensionOffset s.byte + 4 + 4 * ceil4 d ≤ s.len.toNat := by
  rw [not_or, Nat.not_lt, Nat.not_lt]

theorem hasWords_xput (profile : Half) {data : List Byte} (h : data.length < 4294967296) :
    HasWords (.xput profile data) (CmdWord.ofFields 0x52#8 0x00#8 profile (BitVec.ofNat 32 data.length)) data := by
  obtain ⟨hword, hdin⟩ := Laws.EncodeLegal.xput profile data (decide_eq_true h)
  refine ⟨rfl, (decodeCommand_of_ok hword hdin).trans ?_⟩
  exact congrArg (fun p => Except.ok (Instr.xput p data)) (CmdWord.a16_ofFields _ _ _ _)

/-- The meaning of `XPUT`: a block that fits is stored whole, by a setter's body. -/
theorem exec_xput (profile : Half) (data : List Byte) (s : State) : exec (.xput profile data) s = .next (withPacket s (
    if ExceedsCapacity s data.length then s.fail .errCapacity else (s.storeBlock profile data).done)) := by
  simp only [ExceedsCapacity, State.storeBlock, ← State.xoff_eq_extensionOffset]
  rfl

theorem xput_answersOnly_of_exceeds {s : State} (hr : Ready s) (profile : Half) {data : List Byte}
    (hc : ExceedsCapacity s data.length) : AnswersOnly (.xput profile data) s .errCapacity 0#32 [] := by
  rw [AnswersOnly, exec_xput, withPacket_ready hr, if_pos hc]
  rfl

/-- Settles O32: the capacity test decides between its answer and the store of the block, whose parts are
`State.storeBlock_holdsBlock`. -/
theorem xputLaysOutThePaddedBlock : Obligations.XputLaysOutThePaddedBlock := by
  intro s profile data hlen
  have hwf : (Instr.xput profile data).wellFormed = true := decide_eq_true hlen
  refine ⟨needsPacket_of_wellFormed hwf rfl s, hasWords_xput profile hlen, fun hr hn => ?_, fun hr hl => ?_, fun hr hn hl => ?_⟩
  · exact xput_answersOnly_of_exceeds hr profile (.inl hn)
  · exact xput_answersOnly_of_exceeds hr profile (.inr hl)
  · have hexec := exec_xput profile data s
    rw [if_neg (not_exceedsCapacity_iff.mpr ⟨hn, hl⟩)] at hexec
    have hwrites := writes_of_store (P := fun t => HoldsBlock t (extensionOffset s.byte) profile data) hexec hr
      (s.storeBlock_holdsBlock profile hn)
    rwa [extensionBlock_length] at hwrites

/-- While the extension flag is 0, no block is present, whatever stands behind the CSRC list (43_extension.md R174): `HLEN`
counts none, `XPROF` and `XVIEW` read none. -/
theorem noExtension_answers {t : State} (hr : Ready t) (hx : ¬ hasExtension t.byte) :
    (∃ v, AnswersOnly .hlen t .ok v [] ∧ v.toNat = 12 + 4 * csrcCount t.byte) ∧
    AnswersOnly .xprof t .ok 0#32 [] ∧ AnswersOnly .xview t .ok 0#32 [] := by
  have hd : DeclaresHeader t.byte (12 + 4 * csrcCount t.byte) := .inr ⟨hx, rfl⟩
  have hreach : ¬ CountOutOfReach t.byte t.len.toNat := fun hc => hx hc.1
  exact ⟨⟨_, hlen_answersOnly hr hreach hd, hd.toNat_ofNat⟩, xprof_answersOnly_zero hr hx, xview_answersOnly_empty hr hx⟩

/-- Settles O33: in both branches of the capacity test byte 0 is as before, and with it the flag, whatever it is. -/
theorem xputLeavesTheFlag : Obligations.XputLeavesTheFlag := by
  intro s profile data hr
  by_cases hc : ExceedsCapacity s data.length
  · exact ⟨s.fail .errCapacity, xput_answersOnly_of_exceeds hr profile hc, rfl,
      fun hn hl => absurd hc (not_exceedsCapacity_iff.mpr ⟨hn, hl⟩), noExtension_answers (t := s.fail .errCapacity) hr⟩
  · have hexec : exec (.xput profile data) s = .next (s.storeBlock profile data).done := by
      rw [exec_xput, withPacket_ready hr, if_neg hc]
    have hbyte : (s.storeBlock profile data).done.byte 0 = s.byte 0 := s.storeBlock_byte_zero profile data
    refine ⟨_, hexec, by rw [hbyte], fun hn _ => ⟨rfl, s.storeBlock_holdsBlock profile hn⟩, fun hx => ?_⟩
    have hanswers := noExtension_answers (t := (s.storeBlock profile data).done) hr (by rwa [hasExtension, hbyte])
    rwa [csrcCount, hbyte] at hanswers

end Sys2Proof.Machine
end

section
/-! PROOF. `LOAD` (44_lifecycle.md R191, R195): the lengths it compares, in order, and the packet it leaves. A word count out of
reach is one of the ways in which the declared header exceeds the bytes offered. -/
namespace Sys2Proof.Machine

/-! ## The declared header against the bytes it is read from -/

theorem exists_declaresHeader (rd : Nat → Byte) : ∃ h, DeclaresHeader rd h := by
  by_cases hx : hasExtension rd
  · exact ⟨_, .inl ⟨hx, rfl⟩⟩
  · exact ⟨_, .inr ⟨hx, rfl⟩⟩

/-- A header whose word count is out of reach ends outside the buffer too. -/
theorem CountOutOfReach.lt_header {rd : Nat → Byte} {len h : Nat} (hc : CountOutOfReach rd len) (hd : DeclaresHeader rd h) :
    len < h :=
  Nat.lt_of_not_le fun hl => hd.not_countOutOfReach hl hc

/-- What `headerLength` can give, in terms of the declared header. -/
theorem headerLength_eq_none_or_some {rd : Nat → Byte} {h : Nat} (hd : DeclaresHeader rd h) (len : Nat) :
    (CountOutOfReach rd len ∧ headerLength rd len = none) ∨ headerLength rd len = some h := by
  by_cases hc : CountOutOfReach rd len
  · exact .inl ⟨hc, headerLength_eq_none hc⟩
  · obtain ⟨n, hn, hdn⟩ := headerLength_eq_some hc
    exact .inr (by rw [hn, hdn.unique hd])

theorem headerLength_of_fits {rd : Nat → Byte} {len h : Nat} (hd : DeclaresHeader rd h) (hl : h ≤ len) :
    headerLength rd len = some h :=
  (headerLength_eq_none_or_some hd len).resolve_left fun hn => hd.not_countOutOfReach hl hn.1

/-- A header is declared by its own bytes alone. -/
theorem DeclaresHeader.congr {rd rd' : Nat → Byte} {h : Nat} (hd : DeclaresHeader rd h) (hb : ∀ a, a < h → rd' a = rd a) :
    DeclaresHeader rd' h := by
  have h0 : rd' 0 = rd 0 := hb 0 (by have hge := hd.ge; unfold extensionOffset at hge; omega)
  have hoff : extensionOffset rd' = extensionOffset rd := by unfold extensionOffset csrcCount; rw [h0]
  rcases hd with ⟨hx, hlen⟩ | ⟨hx, hlen⟩
  · have hcount : wordCount rd' = wordCount rd := by
      unfold wordCount number16
      rw [hoff, hb _ (by unfold extensionOffset; omega), hb _ (by unfold extensionOffset; omega)]
    exact .inl ⟨by rwa [hasExtension, h0], by rw [hcount, csrcCount, h0]; exact hlen⟩
  · exact .inr ⟨by rwa [hasExtension, h0], by rw [csrcCount, h0]; exact hlen⟩

/-! ## The common prologue of a command that creates a packet -/

theorem needsNoPacket_of_exec {i : Instr} {s body : State} (h : exec i s = .next (withoutPacket s body)) :
    NeedsNoPacket i s := by
  constructor
  · intro hf
    rw [AnswersOnly, h, withoutPacket_faulted hf]
    rfl
  · intro hf hv
    rw [AnswersOnly, h, withoutPacket_hasPacket hf hv]
    rfl

/-- A body that is a recoverable failure. -/
theorem answersOnly_of_fail {i : Instr} {s body : State} {st : Status} (h : exec i s = .next (withoutPacket s body))
    (hf : s.fault = false) (hv : s.valid = false) (hb : body = s.fail st) : AnswersOnly i s st 0#32 [] := by
  rw [AnswersOnly, h, withoutPacket_empty hf hv, hb]
  rfl

/-! ## `LOAD` -/

/-- The bytes offered to `LOAD`, read as the bytes of a buffer are. -/
abbrev offered (bytes : List Byte) : Nat → Byte := fun a => bytes.getD a 0x00#8

/-- The packet of the bytes offered. -/
def State.loadBytes (s : State) (bytes : List Byte) : State :=
  { s.store 0 bytes with len := BitVec.ofNat 32 bytes.length, valid := true }

theorem State.loadBytes_isBytesAt (s : State) (bytes : List Byte) : IsBytesAt (s.loadBytes bytes) 0 bytes.length bytes :=
  isBytesAt_store s 0 bytes

/-- The packet lies at the start of `BUF`. -/
theorem State.loadBytes_byte_outside (s : State) (bytes : List Byte) {a : Nat} (h : bytes.length ≤ a) :
    (s.loadBytes bytes).byte a = s.byte a :=
  State.byte_store_outside s 0 bytes (.inr (by rwa [Nat.zero_add]))

theorem hasWords_load {bytes : List Byte} (h : bytes.length < 4294967296) :
    HasWords (.load bytes) (0x0200000000000000#64 ||| BitVec.ofNat 64 bytes.length) bytes := by
  have hword : HasWords (.load bytes) (0x0200000000000000#64 ||| (BitVec.ofNat 32 bytes.length).setWidth 64) bytes :=
    hasWords_pattern_or (Laws.EncodeLegal.load bytes) (decide_eq_true h) rfl rfl
  rwa [BitVec.setWidth_ofNat_of_le_of_lt (by decide) h] at hword

section
variable {s : State} {bytes : List Byte} (hf : s.fault = false) (hv : s.valid = false)
include hf hv

theorem load_answersOnly_of_tooLarge (hcap : s.bufCap < bytes.length) : AnswersOnly (.load bytes) s .errSize 0#32 [] :=
  answersOnly_of_fail rfl hf hv (if_pos hcap)

variable (hcap : bytes.length ≤ s.bufCap)
include hcap

theorem load_answersOnly_of_tooShort (h12 : bytes.length < 12) : AnswersOnly (.load bytes) s .errDecode 0#32 [] :=
  answersOnly_of_fail rfl hf hv (by rw [if_neg (Nat.not_lt.mpr hcap), if_pos h12])

/-- `headerLength` fails or exceeds the bytes: `LOAD` answers the same. -/
theorem load_answersOnly_of_header {h : Nat} (hd : DeclaresHeader (offered bytes) h) (hl : bytes.length < h) :
    AnswersOnly (.load bytes) s .errDecode 0#32 [] := by
  by_cases h12 : bytes.length < 12
  · exact load_answersOnly_of_tooShort hf hv hcap h12
  · refine answersOnly_of_fail rfl hf hv ?_
    rw [if_neg (Nat.not_lt.mpr hcap), if_neg h12]
    rcases headerLength_eq_none_or_some hd bytes.length with ⟨_, hn⟩ | hs
    · rw [hn]
    · simp only [hs]
      exact if_pos hl

theorem exec_load_of_fits (h12 : 12 ≤ bytes.length) {h : Nat} (hd : DeclaresHeader (offered bytes) h) (hl : h ≤ bytes.length) :
    exec (.load bytes) s = .next (s.loadBytes bytes).done := by
  refine congrArg Host.Outcome.next ((withoutPacket_empty hf hv _).trans ?_)
  rw [if_neg (Nat.not_lt.mpr hcap), if_neg (Nat.not_lt.mpr h12)]
  simp only [headerLength_of_fits hd hl]
  exact if_neg (Nat.not_lt.mpr hl)

end

/-- Settles O36: the comparisons one after the other, the word count out of reach by the header it makes too long, and past them
the packet `State.loadBytes`. -/
theorem loadAcceptsBytesThatHoldTheirHeader : Obligations.LoadAcceptsBytesThatHoldTheirHeader := by
  intro s bytes hlen rd
  refine ⟨needsNoPacket_of_exec rfl, hasWords_load hlen, fun hf hv => ⟨?_, ?_, fun hcap hc => ?_, fun hcap h hd hl => ?_,
    fun hcap h12 h hd hl => ?_⟩⟩
  · exact load_answersOnly_of_tooLarge hf hv
  · exact load_answersOnly_of_tooShort hf hv
  · obtain ⟨h, hd⟩ := exists_declaresHeader rd
    exact load_answersOnly_of_header hf hv hcap hd (hc.lt_header hd)
  · exact load_answersOnly_of_header hf hv hcap hd hl
  · exact ⟨_, exec_load_of_fits hf hv hcap h12 hd hl, rfl, Nat.mod_eq_of_lt hlen, rfl, rfl, rfl, rfl, rfl, rfl, rfl,
      s.loadBytes_isBytesAt bytes, fun _ ha => s.loadBytes_byte_outside bytes ha⟩

end Sys2Proof.Machine
end

section
/-! PROOF. `SER` and `FREE` (44_lifecycle.md R192, R193): the string `SER` answers stands in the buffer before `FREE` and after
`LOAD`, and declares the header the buffer declares. -/
namespace Sys2Proof.Machine

/-! ## A byte string that stands in the buffer -/

/-- Two buffers in which the same string stands agree there. -/
theorem byte_eq_of_isBytesAt {s t : State} {a n k : Nat} {bs : List Byte} (hs : IsBytesAt s a n bs) (ht : IsBytesAt t a n bs)
    (hk : k < n) : t.byte (a + k) = s.byte (a + k) :=
  Option.some.inj ((ht.2 k hk).symm.trans (hs.2 k hk))

/-- Offered to `LOAD`, the string at the start of the buffer reads as the buffer. -/
theorem offered_of_isBytesAt {s : State} {n a : Nat} {bs : List Byte} (h : IsBytesAt s 0 n bs) (ha : a < n) :
    offered bs a = s.byte a := by
  rw [offered, List.getD_eq_getElem?_getD, h.2 a ha, Nat.zero_add]
  rfl

/-! ## The two commands past the prologue -/

/-- The guard cannot fail: the string ends at `LEN`. -/
theorem ser_answersOnly {s : State} (hr : Ready s) : AnswersOnly .ser s .ok s.len (s.bytes 0 s.len.toNat) :=
  answersOnly_of_respond rfl hr (by rw [State.memReadBytes_eq_some (Nat.zero_add _).le])

theorem exec_free {s : State} (hr : Ready s) : exec .free s = .next { s with valid := false, len := 0#32 }.done :=
  congrArg Host.Outcome.next (withPacket_ready hr _)

/-- `LOAD` of the bytes of a packet, in a block without one: the buffer's header is the one the string declares, so the string is
accepted, and it stands where it stood. -/
theorem load_restores {s t : State} (hf : t.fault = false) (hv : t.valid = false) (h12 : 12 ≤ s.len.toNat)
    (hcap : s.len.toNat ≤ t.bufCap) {h : Nat} (hd : DeclaresHeader s.byte h) (hl : h ≤ s.len.toNat) :
    ∃ u, exec (.load (s.bytes 0 s.len.toNat)) t = .next u ∧ u.valid = true ∧ u.len = s.len ∧
      ∀ a, a < s.len.toNat → u.byte a = s.byte a := by
  have hbytes : IsBytesAt s 0 s.len.toNat (s.bytes 0 s.len.toNat) := isBytesAt_bytes s 0 s.len.toNat
  have hlength : (s.bytes 0 s.len.toNat).length = s.len.toNat := hbytes.1
  have hheader : DeclaresHeader (offered (s.bytes 0 s.len.toNat)) h :=
    hd.congr fun a ha => offered_of_isBytesAt hbytes (by omega)
  have hpacket := t.loadBytes_isBytesAt (s.bytes 0 s.len.toNat)
  rw [hlength] at hpacket
  refine ⟨_, exec_load_of_fits hf hv (by omega) (by omega) hheader (by omega), rfl, ?_, fun a ha => ?_⟩
  · rw [State.done_len, State.loadBytes, hlength, BitVec.ofNat_toNat, BitVec.setWidth_eq]
  · rw [State.done_byte, ← Nat.zero_add a]
    exact byte_eq_of_isBytesAt hbytes hpacket ha

/-- Settles O37: `FREE` takes away the packet and leaves the latch and `BUF_CAP`, and in that state `load_restores` holds of the
string `SER` answered. -/
theorem serGivesThePacketAndLoadRestoresIt : Obligations.SerGivesThePacketAndLoadRestoresIt := by
  refine ⟨fun s => ⟨needsPacket_of_wellFormed rfl rfl s, hasWords_of_noOperand (i := .ser) rfl, fun hr => ?_⟩,
    fun s hr h12 hcap h hd hl => ?_⟩
  · exact ⟨_, ser_answersOnly hr, isBytesAt_bytes s 0 s.len.toNat⟩
  · obtain ⟨u, hload, hrestored⟩ :=
      load_restores (t := { s with valid := false, len := 0#32 }.done) hr.1 rfl h12 hcap hd hl
    exact ⟨_, _, u, ser_answersOnly hr, exec_free hr, hload, hrestored⟩

/-- Settles O38: past the prologue the meaning of `FREE` is the two elements it sets. -/
theorem freeReleasesThePacket : Obligations.FreeReleasesThePacket := fun s =>
  ⟨needsPacket_of_wellFormed rfl rfl s, hasWords_of_noOperand (i := .free) rfl, exec_free⟩

end Sys2Proof.Machine
end

section
/-! PROOF. The prologue's two exceptions over all commands and over the port (60_exceptions.md R216, R218): every command stands
behind one of the two prologues, but for a list of entries without a command word, which is an illegal command. -/
namespace Sys2Proof.Machine

/-! ## The prologue of every command -/

/-- The commands that create a packet have the exceptions of the other prologue (60_exceptions.md R220). -/
theorem needsNoPacket_of_createsPacket {i : Instr} (hc : createsPacket i = true) (s : State) : NeedsNoPacket i s := by
  cases i with
  | alloc _ | load _ => exact needsNoPacket_of_exec rfl
  | _ => cases hc

/-- Of the commands without a command word, `XPUT` stands behind the prologue all the same, and `WRCSRC` is an illegal command
(log entry 10). -/
theorem needsPacket_or_illegalCommand {i : Instr} (hc : createsPacket i = false) (s : State) :
    NeedsPacket i s ∨ exec i s = .next (illegalCommand s) := by
  cases hw : i.wellFormed with
  | true => exact .inl (needsPacket_of_wellFormed hw hc s)
  | false =>
    cases i with
    | wrcsrc entries =>
      have hl : 15 < entries.length := Nat.lt_of_not_le (of_decide_eq_false hw)
      exact .inr (congrArg Host.Outcome.next (if_pos hl))
    | xput _ _ => exact .inl (needsPacket_of_exec rfl)
    | load _ => cases hc
    | _ => cases hw

/-! ## The latch is set -/

theorem illegalCommand_of_fault {s : State} (hf : s.fault = true) : illegalCommand s = s.fail .faulted := if_pos hf

/-- WHILE THE LATCH IS SET EVERY COMMAND ANSWERS `FAULTED` AND NOTHING ELSE (60_exceptions.md R218). -/
theorem answersOnly_faulted (i : Instr) {s : State} (hf : s.fault = true) : AnswersOnly i s .faulted 0#32 [] := by
  cases hc : createsPacket i with
  | true => exact (needsNoPacket_of_createsPacket hc s).1 hf
  | false =>
    rcases needsPacket_or_illegalCommand hc s with hn | hx
    · exact hn.1 hf
    · rw [AnswersOnly, hx, illegalCommand_of_fault hf]
      rfl

/-- A step with a command on the port. -/
theorem step_of_decodeCommand {s : State} {w : CmdWord} {din : List Byte} {rest : List Event} {i : Instr}
    (hp : s.port = .command w din :: rest) (hd : decodeCommand w din = .ok i) : step s = exec i { s with port := rest } := by
  rw [step, hp]
  simp only [runCommand, hd]

/-- Settles O11: of a legal word the command answers, of an illegal one the port, whose `DIN` is empty. -/
theorem latchedFaultAnswersFaulted : Obligations.LatchedFaultAnswersFaulted := by
  intro s hf
  refine ⟨fun i => answersOnly_faulted i hf, fun w din rest hp hlen => ?_⟩
  cases hw : decodeWord w with
  | ok o =>
    rw [step_of_decodeCommand hp (decodeCommand_of_ok hw hlen)]
    exact answersOnly_faulted _ (s := { s with port := rest }) hf
  | error e =>
    obtain rfl : din = [] := List.length_eq_zero_iff.mp (hlen.trans (dinBytes_of_error hw))
    rw [step_of_error hw hp, illegalCommand_of_fault (s := { s with port := rest }) hf]
    rfl

/-- Settles O12: the second exception of the two prologues. -/
theorem commandsThatDoNotSuitValidAnswerErrState : Obligations.CommandsThatDoNotSuitValidAnswerErrState := by
  intro i s hw hf hv
  cases hc : createsPacket i with
  | true => exact (needsNoPacket_of_createsPacket hc s).2 hf (hv.trans hc)
  | false => exact (needsPacket_of_wellFormed hw hc s).2 hf (hv.trans hc)

end Sys2Proof.Machine
end

section
/-! PROOF. Fault entry (60_exceptions.md R221, 10_state.md R24): of the three kinds of answer only fault entry sets the latch or
answers `FAULT_BOUNDS`, and while the latch is set a command can only answer `FAULTED`. -/
namespace Sys2Proof.Machine

/-- The responses given so far determine the response a command adds. -/
theorem response_unique {rs : List Response} {r r' : Response} (h : rs ++ [r] = rs ++ [r']) : r = r' :=
  List.singleton_inj.mp (List.append_cancel_left h)

section
variable {s t : State}

/-- The latch is set by fault entry alone. -/
theorem Effect.eq_raiseBounds_of_latched (he : Effect s t) (hf : s.fault = false) (ht : t.fault = true) :
    t = s.raiseBounds := by
  rcases he.failure_or_success with ⟨st, _, _, rfl⟩ | hb | ⟨v, d, _, _, _, _, hsame, _⟩
  · rw [State.fail_fault, hf] at ht
    cases ht
  · exact hb
  · rw [hsame, hf] at ht
    cases ht

variable {r : Response} (hr : t.replies = s.replies ++ [r])
include hr

/-- `FAULT_BOUNDS` is answered by fault entry alone. -/
theorem Effect.eq_raiseBounds_of_answer (he : Effect s t) (hst : r.st = .faultBounds) : t = s.raiseBounds := by
  rcases he.failure_or_success with ⟨st, _, hfb, rfl⟩ | hb | ⟨v, d, hok, _⟩
  · obtain rfl := response_unique hr
    exact absurd hst hfb
  · exact hb
  · obtain rfl := response_unique (hok.symm.trans hr)
    cases hst

/-- Any other failure only answers. -/
theorem Effect.eq_fail_of_answer (he : Effect s t) (hok : r.st ≠ .ok) (hfb : r.st ≠ .faultBounds) : t = s.fail r.st := by
  rcases he.failure_or_success with ⟨st, _, _, rfl⟩ | rfl | ⟨v, d, hanswer, _⟩
  · obtain rfl := response_unique hr
    rfl
  · obtain rfl := response_unique hr
    exact absurd rfl hfb
  · obtain rfl := response_unique (hanswer.symm.trans hr)
    exact absurd rfl hok

end

/-- A latched fault is answered `FAULTED`, so that a command whose state is the one after fault entry found the latch clear. -/
theorem noFault_of_exec_raiseBounds {i : Instr} {s : State} (h : exec i s = .next s.raiseBounds) : s.fault = false := by
  by_contra hset
  have hlatched : exec i s = .next (s.fail .faulted) := answersOnly_faulted i (Bool.eq_true_of_not_eq_false hset)
  have hstate : s.raiseBounds = s.fail .faulted := Host.Outcome.next.inj (h.symm.trans hlatched)
  have hresponse := response_unique (congrArg State.replies hstate)
  cases hresponse

/-- ONLY THE RESET EVENT CLEARS THE LATCH (10_state.md R24). -/
theorem reset_of_latch_cleared {s t : State} (h : step s = .next t) (hs : s.fault = true) (ht : t.fault = false) :
    s.port.head? = some .reset := by
  rcases step_cases h with ⟨_, rfl⟩ | ⟨rest, hp, _⟩ | ⟨w, din, rest, i, _, _, hexec⟩ | ⟨w, din, rest, _, rfl⟩
  · rw [hs] at ht
    cases ht
  · rw [hp]
    rfl
  · have hlatched : exec i { s with port := rest } = .next (State.fail { s with port := rest } .faulted) :=
      answersOnly_faulted i hs
    obtain rfl := Host.Outcome.next.inj (hexec.symm.trans hlatched)
    rw [State.fail_fault, hs] at ht
    cases ht
  · rw [illegalCommand_of_fault (s := { s with port := rest }) hs, State.fail_fault, hs] at ht
    cases ht

/-- Settles O13: the latch going up, or `FAULT_BOUNDS` answered, makes the next state `State.raiseBounds`, which is what `TakesFault`
writes out; another failure makes it `State.fail`. -/
theorem faultEntrySetsOnlyTheLatch : Obligations.FaultEntrySetsOnlyTheLatch := by
  refine ⟨fun i s t h hf ht => ?_, fun i s t r h hr hst => ?_, fun i s t r h hr hok hfb => ?_,
    fun s t => reset_of_latch_cleared, fun i s => answersOnly_faulted i⟩
  · rw [(effect_of_exec h).eq_raiseBounds_of_latched hf ht] at h
    exact h
  · rw [(effect_of_exec h).eq_raiseBounds_of_answer hr hst] at h
    exact ⟨noFault_of_exec_raiseBounds h, h⟩
  · exact (effect_of_exec h).eq_fail_of_answer hr hok hfb

end Sys2Proof.Machine
end

section
/-! PROOF. The words of the commands (30_encoding.md sections 1 to 3): decoding after encoding, as the pair on the port and as
bytes. -/
namespace Sys2Proof

/-! ## The word and `DIN` of a well-formed command -/

/-- The word of a well-formed command is legal and fixes the length of the command's `DIN`. -/
theorem encodeLegal (i : Instr) : Laws.EncodeLegal.Statement i := by
  cases i with
  | alloc size => exact Laws.EncodeLegal.alloc size
  | load bytes => exact Laws.EncodeLegal.load bytes
  | wrv v => exact Laws.EncodeLegal.wrv v
  | wrcc v => exact Laws.EncodeLegal.wrcc v
  | wrpt v => exact Laws.EncodeLegal.wrpt v
  | wrseq v => exact Laws.EncodeLegal.wrseq v
  | wrts v => exact Laws.EncodeLegal.wrts v
  | wrssrc v => exact Laws.EncodeLegal.wrssrc v
  | wrcsrc entries => exact Laws.EncodeLegal.wrcsrc entries
  | xput profile data => exact Laws.EncodeLegal.xput profile data
  | ser | free | rdv | rdp | rdx | rdcc | rdm | rdpt | rdseq | rdts | rdssrc | rdcsrc | setp | setx | setm | clrp | clrx | clrm
  | hlen | plen | pview | xprof | xview =>
    exact fun _ => Laws.EncodeLegal.of_fields (fun _ => rfl) (Nat.two_pow_pos 0) (fun h => by rw [dinBytes, h]; rfl)

/-- A row reads its operands back from the fields they were put into (30_encoding.md R84, R86). -/
theorem instr_encodeWord (i : Instr) : i.op.instr (encodeWord i) i.din = i := by
  cases i with
  | alloc _ | wrcc _ | wrts _ | wrssrc _ => simp only [Instr.op, Op.instr, Laws.EncodeLegal.a32_encodeWord, Instr.a32]
  | wrv v => exact congrArg Instr.wrv (Machine.setWidth_a32_encodeWord rfl (by decide))
  | wrpt v => exact congrArg Instr.wrpt (Machine.setWidth_a32_encodeWord rfl (by decide))
  | wrseq v => exact congrArg Instr.wrseq (Machine.setWidth_a32_encodeWord rfl (by decide))
  | wrcsrc entries => exact congrArg Instr.wrcsrc (Machine.bytesToEntries_entriesToBytes entries)
  | xput profile data => exact congrArg (Instr.xput · data) (CmdWord.a16_ofFields _ _ _ _)
  | load _ | ser | free | rdv | rdp | rdx | rdcc | rdm | rdpt | rdseq | rdts | rdssrc | rdcsrc | setp | setx | setm | clrp | clrx
  | clrm | hlen | plen | pview | xprof | xview => rfl

theorem decodeCommand_encode {i : Instr} (hw : i.wellFormed = true) : decodeCommand (encodeWord i) i.din = .ok i := by
  obtain ⟨hd, hn⟩ := encodeLegal i hw
  rw [decodeCommand_of_ok hd hn, instr_encodeWord]

/-! ## The byte form (log entry 12) -/

/-- The eight bytes of a command word make it again. -/
theorem CmdWord.append_toBytes (w : CmdWord) :
    (w.extractLsb' 56 8 ++ w.extractLsb' 48 8 ++ w.extractLsb' 40 8 ++ w.extractLsb' 32 8 ++
      w.extractLsb' 24 8 ++ w.extractLsb' 16 8 ++ w.extractLsb' 8 8 ++ w.extractLsb' 0 8 : CmdWord) = w := by
  have hjoin (k n : Nat) : w.extractLsb' (k + 8) n ++ w.extractLsb' k 8 = w.extractLsb' k (n + 8) :=
    BitVec.extractLsb'_append_extractLsb'_eq_extractLsb' rfl
  rw [hjoin 48 8, hjoin 40, hjoin 32, hjoin 24, hjoin 16, hjoin 8, hjoin 0]
  exact BitVec.extractLsb'_eq_self

/-- The byte decoder takes the word, as much `DIN` as the word fixes, and leaves the rest. -/
theorem decodeBytes_toBytes {w : CmdWord} {din : List Byte} {i : Instr} (hn : din.length = dinBytes w)
    (hd : decodeCommand w din = .ok i) (rest : List Byte) : decodeBytes (w.toBytes ++ (din ++ rest)) = .ok (i, rest) := by
  have htake : (din ++ rest).take (dinBytes w) = din := List.take_left' hn
  have hdrop : (din ++ rest).drop (dinBytes w) = rest := List.drop_left' hn
  have hlong : ¬ (din ++ rest).length < dinBytes w := by rw [List.length_append]; omega
  simp only [CmdWord.toBytes, List.cons_append, List.nil_append, decodeBytes, CmdWord.append_toBytes, if_neg hlong, htake, hd,
    hdrop]

/-- Settles O2: the word of a well-formed command selects its row, which reads the operands back; the byte form splits where the
word's `DIN` ends. -/
theorem decodeOfEncodeIsTheCommand : Obligations.DecodeOfEncodeIsTheCommand := by
  intro i hw
  refine ⟨decodeCommand_encode hw, fun rest => ?_⟩
  rw [encodeBytes, List.append_assoc]
  exact decodeBytes_toBytes (encodeLegal i hw).2 (decodeCommand_encode hw) rest

/-- Settles O1: each word of the vectors is the encoding of its command, by the command's own `HasWords` lemma where there is one. -/
theorem vectorWordsDecode : Obligations.VectorWordsDecode :=
  ⟨(Machine.hasWords_wrv 3#2).2, (Machine.hasWords_wrcc 0x12345678#32).2,
    (Machine.hasWords_wrcsrc (entries := [0xDEADBEEF#32, 0x00000001#32]) (by decide)).2,
    (Machine.hasWords_of_noOperand (i := .plen) rfl).2, (Machine.hasWords_xput 0xABCD#16 (data := [0x55#8]) (by decide)).2,
    decodeCommand_encode (i := .alloc 52#32) rfl⟩

end Sys2Proof
end

section
/-! PROOF. What every step keeps (10_state.md R21, R33, R34): a predicate that the port does not touch, that holds after reset and
that the seven effects of a command keep. -/
namespace Sys2Proof.Machine

/-! ## From the effects of a command to every step -/

/-- A STEP KEEPS what does not depend on the port, holds after the reset event, and is kept by every effect of a command. -/
theorem step_keeps {P : State → Prop} (hport : ∀ s port, P s → P { s with port := port }) (hreset : ∀ s, P s → P s.resetEvent)
    (heffect : ∀ s t, P s → Effect s t → P t) {s t : State} (hs : P s) (h : step s = .next t) : P t := by
  rcases step_cases h with ⟨_, rfl⟩ | ⟨rest, _, rfl⟩ | ⟨w, din, rest, i, _, _, hexec⟩ | ⟨w, din, rest, _, rfl⟩
  · exact hs
  · exact hreset _ (hport s rest hs)
  · exact heffect _ _ (hport s rest hs) (effect_of_exec hexec)
  · exact heffect _ _ (hport s rest hs) (illegalCommand_effect _)

/-! ## The control relations -/

theorem ControlInv.len_le_cap {s : State} (hc : ControlInv s) : s.len.toNat ≤ s.bufCap := by
  cases hv : s.valid with
  | true => exact (hc.valid_len hv).2
  | false => rw [hc.invalid_len hv]; exact Nat.zero_le _

/-- What fits the buffer fits `LEN`. -/
theorem ControlInv.lt_of_le_cap {s : State} (hc : ControlInv s) {n : Nat} (hn : n ≤ s.bufCap) : n < 4294967296 := by
  have hcap := hc.cap_le
  omega

/-- The relations read the six elements alone. -/
theorem ControlInv.congr {s t : State} (hc : ControlInv s) (hcap : t.bufCap = s.bufCap) (hlen : t.len = s.len)
    (hvalid : t.valid = s.valid) (hfault : t.fault = s.fault) (hcause : t.fcause = s.fcause) : ControlInv t where
  cap_ge := hcap ▸ hc.cap_ge
  cap_le := hcap ▸ hc.cap_le
  valid_len := by rw [hvalid, hlen, hcap]; exact hc.valid_len
  invalid_len := by rw [hvalid, hlen]; exact hc.invalid_len
  nofault_cause := by rw [hfault, hcause]; exact hc.nofault_cause
  fault_cause := by rw [hfault, hcause]; exact hc.fault_cause

theorem ControlInv.raiseBounds {s : State} (hc : ControlInv s) : ControlInv s.raiseBounds where
  cap_ge := hc.cap_ge
  cap_le := hc.cap_le
  valid_len := hc.valid_len
  invalid_len := hc.invalid_len
  nofault_cause := nofun
  fault_cause _ := rfl

/-- No packet and no latched fault, as after reset. -/
theorem ControlInv.of_empty {s : State} (hge : 12 ≤ s.bufCap) (hle : s.bufCap ≤ 4294967295) (hlen : s.len = 0#32)
    (hvalid : s.valid = false) (hfault : s.fault = false → s.fcause = 0x0#4) (hcause : s.fault = true → s.fcause = 0x8#4) :
    ControlInv s where
  cap_ge := hge
  cap_le := hle
  valid_len h := by rw [hvalid] at h; cases h
  invalid_len _ := hlen
  nofault_cause := hfault
  fault_cause := hcause

theorem ControlInv.resetEvent {s : State} (hc : ControlInv s) : ControlInv s.resetEvent :=
  .of_empty hc.cap_ge hc.cap_le rfl rfl (fun _ => rfl) nofun

theorem ControlInv.effect {s t : State} (hc : ControlInv s) (he : Effect s t) : ControlInv t := by
  cases he with
  | fails _ _ _ | reads _ _ _ | writes _ _ _ _ | writesList _ _ _ _ => exact hc.congr rfl rfl rfl rfl rfl
  | faults _ => exact hc.raiseBounds
  | releases _ => exact .of_empty hc.cap_ge hc.cap_le rfl rfl hc.nofault_cause hc.fault_cause
  | creates hf _ bs len k hge hle hlen =>
    have hbytes := hlen (hc.lt_of_le_cap hle)
    exact
      { cap_ge := hc.cap_ge
        cap_le := hc.cap_le
        valid_len := fun _ => by rw [State.done_len, hbytes]; exact ⟨hge, hle⟩
        invalid_len := nofun
        nofault_cause := hc.nofault_cause
        fault_cause := hc.fault_cause }

/-- Settles O41: reset and the seven effects keep the relations. -/
theorem stepKeepsTheControlRelations : Obligations.StepKeepsTheControlRelations := fun _ _ hc h =>
  step_keeps (P := ControlInv) (fun _ _ hc => hc.congr rfl rfl rfl rfl rfl) (fun _ hc => hc.resetEvent) (fun _ _ hc => hc.effect) hc h

/-! ## The buffer -/

/-- A byte stored, or held before, is held after a store. -/
theorem Memory.put_holds {m : Memory} {a : Nat} {bs : List Byte} {x : Nat}
    (h : (a ≤ x ∧ x < a + bs.length) ∨ ∃ b, m.get? x = some b) : ∃ b, (m.put a bs).get? x = some b := by
  rw [Memory.get?_put]
  by_cases hx : a ≤ x ∧ x < a + bs.length
  · exact ⟨_, by rw [if_pos hx, List.getElem?_eq_getElem (by omega)]⟩
  · rw [if_neg hx]
    exact h.resolve_left hx

/-- The invariant reads `BUF`, `BUF_CAP` and `LEN` alone. -/
theorem BufInv.congr {s t : State} (hb : BufInv s) (hbuf : t.buf = s.buf) (hcap : t.bufCap = s.bufCap) (hlen : t.len = s.len) :
    BufInv t where
  canonical := hbuf ▸ hb.canonical
  inside := by rw [hbuf, hcap]; exact hb.inside
  held := by rw [hbuf, hlen]; exact hb.held

/-- A store inside `BUF_CAP` keeps the invariant, with any `LEN` whose new bytes lie in the store. -/
theorem BufInv.store {s t : State} (hb : BufInv s) {a : Nat} {bs : List Byte} (hin : a + bs.length ≤ s.bufCap)
    (hbuf : t.buf = s.buf.put a bs) (hcap : t.bufCap = s.bufCap)
    (hlen : ∀ x, x < t.len.toNat → (a ≤ x ∧ x < a + bs.length) ∨ x < s.len.toNat) : BufInv t where
  canonical := by rw [hbuf]; exact Memory.put_wf hb.canonical a bs
  inside c hc := by
    rw [hbuf] at hc
    rw [hcap]
    rcases Memory.mem_put hc with hold | hnew
    · exact hb.inside c hold
    · omega
  held x hx := by
    rw [hbuf]
    exact Memory.put_holds ((hlen x hx).imp_right (hb.held x))

/-- Nothing listed and no packet. -/
theorem BufInv.of_empty {s : State} (hbuf : s.buf = []) (hlen : s.len = 0#32) : BufInv s where
  canonical := by rw [hbuf]; rfl
  inside := by rw [hbuf]; exact nofun
  held a ha := by rw [hlen] at ha; exact absurd ha (Nat.not_lt_zero a)

theorem BufInv.effect {s t : State} (hc : ControlInv s) (hb : BufInv s) (he : Effect s t) : BufInv t := by
  have hcap := hc.len_le_cap
  have hcap12 := hc.cap_ge
  cases he with
  | fails _ _ _ | faults _ | reads _ _ _ => exact hb.congr rfl rfl rfl
  | writes _ a bs hin => exact hb.store (by omega) rfl rfl (fun _ hx => .inr hx)
  | writesList _ b entries hin =>
    have hcount : BufInv (s.store 0 [b]) := hb.store (by rw [List.length_singleton]; omega) rfl rfl (fun _ hx => .inr hx)
    exact hcount.store (by rw [entriesToBytes_length, State.store_bufCap]; omega) rfl rfl (fun _ hx => .inr hx)
  | creates _ _ bs len k _ hle hlen =>
    have hbytes := hlen (hc.lt_of_le_cap hle)
    exact hb.store (a := 0) (bs := bs) (by omega) rfl rfl
      (fun x hx => .inl ⟨Nat.zero_le x, by rw [State.done_len, hbytes] at hx; omega⟩)
  | releases _ => exact ⟨hb.canonical, hb.inside, nofun⟩

/-- Settles O42: together with the control relations, which bound `LEN` by `BUF_CAP`. -/
theorem stepKeepsTheBufferWritten : Obligations.StepKeepsTheBufferWritten := by
  intro s t hc hb h
  have hkept : ControlInv t ∧ BufInv t :=
    step_keeps (P := fun s => ControlInv s ∧ BufInv s)
      (fun _ _ hs => ⟨hs.1.congr rfl rfl rfl rfl rfl, hs.2.congr rfl rfl rfl⟩)
      (fun _ hs => ⟨hs.1.resetEvent, .of_empty rfl rfl⟩) (fun _ _ hs he => ⟨hs.1.effect he, hs.2.effect hs.1 he⟩) ⟨hc, hb⟩ h
  exact hkept.2

/-- Settles O40: there is no packet after reset, and nothing has been written. -/
theorem resetMeetsTheInvariants : Obligations.ResetMeetsTheInvariants :=
  ⟨.of_empty (by decide) (by decide) rfl rfl (fun _ => rfl) nofun, .of_empty rfl rfl, nofun⟩

end Sys2Proof.Machine
end

section
/-! PROOF. `ALLOC` (44_lifecycle.md R190), and all that a command which creates a packet can do. -/
namespace Sys2Proof.Machine

/-- The packet of free values. -/
def State.allocPacket (s : State) (size : Word) : State :=
  { s.store 0 (drawnBytes s.allocs size.toNat) with len := size, valid := true, allocs := s.allocs + 1 }

/-- Each byte of the packet is one draw. -/
theorem State.allocPacket_byte (s : State) (size : Word) {a : Nat} (ha : a < size.toNat) :
    (s.allocPacket size).byte a = Config.allocByte s.allocs a := by
  have hdrawn : a < (drawnBytes s.allocs size.toNat).length := by rwa [drawnBytes_length]
  have hstored := State.byte_store_inside s 0 (drawnBytes s.allocs size.toNat) hdrawn
  rw [Nat.zero_add] at hstored
  exact hstored.trans (by simp [drawnBytes])

/-- The packet lies at the start of `BUF`. -/
theorem State.allocPacket_byte_outside (s : State) (size : Word) {a : Nat} (ha : size.toNat ≤ a) :
    (s.allocPacket size).byte a = s.byte a :=
  State.byte_store_outside s 0 _ (.inr (by rwa [drawnBytes_length, Nat.zero_add]))

section
variable {s : State} {size : Word} (hf : s.fault = false) (hv : s.valid = false)
include hf hv

theorem alloc_answersOnly_of_badSize (hsize : size.toNat < 12 ∨ s.bufCap < size.toNat) :
    AnswersOnly (.alloc size) s .errSize 0#32 [] :=
  answersOnly_of_fail rfl hf hv (if_pos hsize)

theorem exec_alloc_of_fits (h12 : 12 ≤ size.toNat) (hcap : size.toNat ≤ s.bufCap) :
    exec (.alloc size) s = .next (s.allocPacket size).done :=
  congrArg Host.Outcome.next ((withoutPacket_empty hf hv _).trans (if_neg (by omega)))

end

/-- Settles O35: past the prologue the size decides, and each byte of the packet is one draw. -/
theorem allocCreatesAnUnspecifiedPacket : Obligations.AllocCreatesAnUnspecifiedPacket := by
  intro s size
  refine ⟨needsNoPacket_of_exec rfl,
    hasWords_pattern_or (Laws.EncodeLegal.alloc size) rfl rfl (congrArg Instr.alloc (Laws.EncodeLegal.a32_encodeWord _)),
    fun hf hv => alloc_answersOnly_of_badSize hf hv, fun hf hv h12 hcap => ?_⟩
  exact ⟨_, exec_alloc_of_fits hf hv h12 hcap, rfl, rfl, rfl, rfl, rfl, rfl, rfl, rfl, rfl,
    fun _ ha => s.allocPacket_byte size ha, fun _ ha => s.allocPacket_byte_outside size ha⟩

/-! ## What the two commands can do -/

/-- The prologue of a command that creates a packet. -/
theorem fails_or_empty {i : Instr} (hc : createsPacket i = true) (s : State) :
    (∃ st, exec i s = .next (s.fail st)) ∨ (s.fault = false ∧ s.valid = false) := by
  have hprologue := needsNoPacket_of_createsPacket hc s
  cases hf : s.fault with
  | true => exact .inl ⟨_, hprologue.1 hf⟩
  | false =>
    cases hv : s.valid with
    | true => exact .inl ⟨_, hprologue.2 hf hv⟩
    | false => exact .inr ⟨rfl, rfl⟩

theorem alloc_cases (size : Word) (s : State) :
    (∃ st, exec (.alloc size) s = .next (s.fail st)) ∨ exec (.alloc size) s = .next (s.allocPacket size).done := by
  rcases fails_or_empty (i := .alloc size) rfl s with hfail | ⟨hf, hv⟩
  · exact .inl hfail
  · by_cases hsize : size.toNat < 12 ∨ s.bufCap < size.toNat
    · exact .inl ⟨_, alloc_answersOnly_of_badSize hf hv hsize⟩
    · exact .inr (exec_alloc_of_fits hf hv (by omega) (by omega))

/-- `LOAD` fails, or creates the packet of bytes that hold the header they declare. -/
theorem load_cases (bytes : List Byte) (s : State) :
    (∃ st, exec (.load bytes) s = .next (s.fail st)) ∨
    ((∃ h, DeclaresHeader (offered bytes) h ∧ h ≤ bytes.length) ∧ exec (.load bytes) s = .next (s.loadBytes bytes).done) := by
  rcases fails_or_empty (i := .load bytes) rfl s with hfail | ⟨hf, hv⟩
  · exact .inl hfail
  obtain ⟨h, hd⟩ := exists_declaresHeader (offered bytes)
  rcases Nat.lt_or_ge s.bufCap bytes.length with hlarge | hcap
  · exact .inl ⟨_, load_answersOnly_of_tooLarge hf hv hlarge⟩
  rcases Nat.lt_or_ge bytes.length 12 with hshort | h12
  · exact .inl ⟨_, load_answersOnly_of_tooShort hf hv hcap hshort⟩
  rcases Nat.lt_or_ge bytes.length h with hlong | hl
  · exact .inl ⟨_, load_answersOnly_of_header hf hv hcap hd hlong⟩
  · exact .inr ⟨⟨h, hd, hl⟩, exec_load_of_fits hf hv hcap h12 hd hl⟩

end Sys2Proof.Machine
end

section
/-! PROOF. What a command writes (20_memory.md R62, 10_state.md R21 to R23): `OwnEffect` says of each command which bytes it may
store, and which commands create or release the packet. -/
namespace Sys2Proof.Machine

/-! ## The effects of a command, with the command that has them -/

/-- What command `i` can do to the packet: nothing, a store of its own bytes, creation of a packet of its own bytes, or release. -/
inductive OwnEffect (i : Instr) (s : State) : State → Prop
  | answers {t : State} (hbuf : t.buf = s.buf) (hlen : t.len = s.len) (hvalid : t.valid = s.valid) (hresets : t.resets = s.resets) :
      OwnEffect i s t
  | stores (a : Nat) (bs : List Byte) (own : ∀ x, a ≤ x → x < a + bs.length → WrittenByte i s x) : OwnEffect i s (s.store a bs).done
  | storesCsrc (entries : List Word) (hi : i = .wrcsrc entries) : OwnEffect i s (s.storeCsrc entries).done
  | creates (hc : createsPacket i = true) (bs : List Byte) (len : Word) (k : Nat) (own : ∀ x, x < bs.length → WrittenByte i s x) :
      OwnEffect i s { s.store 0 bs with len := len, valid := true, allocs := k }.done
  | releases (hi : i = .free) : OwnEffect i s { s with valid := false, len := 0#32 }.done

section
variable {i : Instr} {s : State}

theorem OwnEffect.fails (st : Status) : OwnEffect i s (s.fail st) := .answers rfl rfl rfl rfl

/-- From the body of a command that needs a packet to the whole command. -/
theorem ownEffect_withPacket {body : State} (h : OwnEffect i s body) : OwnEffect i s (withPacket s body) := by
  rcases withPacket_cases s body with ⟨_, e⟩ | ⟨_, _, e⟩ | ⟨_, e⟩ <;> rw [e]
  · exact .fails _
  · exact .fails _
  · exact h

/-- A setter of one byte. -/
theorem ownEffect_storeByte {a : Nat} {b : Byte} (own : WrittenByte i s a) :
    OwnEffect i s (withPacket s (s.store a [b]).done) :=
  ownEffect_withPacket (.stores a [b] (fun x hlow hhigh => by
    obtain rfl : x = a := by rw [List.length_singleton] at hhigh; omega
    exact own))

end

/-- A read command writes nothing. -/
theorem ownEffect_of_readCommand {i : Instr} (hi : i ∈ readCommands) {s t : State} (h : exec i s = .next t) : OwnEffect i s t := by
  obtain ⟨hbuf, hlen, hvalid, hresets, _⟩ := readsDependOnThePacketAlone.2 i hi s t h
  exact .answers hbuf hlen hvalid hresets

theorem wrcsrc_ownEffect (entries : List Word) {s t : State} (h : exec (.wrcsrc entries) s = .next t) :
    OwnEffect (.wrcsrc entries) s t := by
  by_cases hn : entries.length ≤ 15
  · cases (exec_wrcsrc hn s).symm.trans h
    refine ownEffect_withPacket ?_
    split
    · exact .storesCsrc entries rfl
    · exact .answers rfl rfl rfl rfl
  · have hexec : exec (.wrcsrc entries) s = .next (illegalCommand s) := congrArg Host.Outcome.next (if_pos (Nat.lt_of_not_le hn))
    cases hexec.symm.trans h
    unfold illegalCommand
    split
    · exact .fails _
    · exact .fails _

theorem xput_ownEffect (profile : Half) (data : List Byte) {s t : State} (h : exec (.xput profile data) s = .next t) :
    OwnEffect (.xput profile data) s t := by
  cases (exec_xput profile data s).symm.trans h
  refine ownEffect_withPacket ?_
  split
  · exact .fails _
  · refine .stores _ _ (fun x hlow hhigh => ?_)
    rw [extensionBlock_length, ← Nat.add_assoc] at hhigh
    exact ⟨hlow, hhigh⟩

theorem alloc_ownEffect (size : Word) {s t : State} (h : exec (.alloc size) s = .next t) : OwnEffect (.alloc size) s t := by
  rcases alloc_cases size s with ⟨st, hexec⟩ | hexec
  · cases hexec.symm.trans h
    exact .fails st
  · cases hexec.symm.trans h
    exact .creates rfl _ _ _ (fun x hx => by rwa [drawnBytes_length] at hx)

theorem load_ownEffect (bytes : List Byte) {s t : State} (h : exec (.load bytes) s = .next t) : OwnEffect (.load bytes) s t := by
  rcases load_cases bytes s with ⟨st, hexec⟩ | ⟨_, hexec⟩
  · cases hexec.symm.trans h
    exact .fails st
  · cases hexec.symm.trans h
    exact .creates rfl bytes _ s.allocs (fun _ hx => hx)

/-- EVERY COMMAND DOES TO THE PACKET WHAT IS ITS OWN. -/
theorem ownEffect_of_exec {i : Instr} {s t : State} (h : exec i s = .next t) : OwnEffect i s t := by
  cases i with
  | wrv _ | setp | clrp | setx | clrx | wrcc _ => cases h; exact ownEffect_storeByte rfl
  | setm | clrm | wrpt _ => cases h; exact ownEffect_storeByte rfl
  | wrseq v => cases h; exact ownEffect_withPacket (.stores 2 (be16 v) (fun _ => And.intro))
  | wrts v => cases h; exact ownEffect_withPacket (.stores 4 (be32 v) (fun _ => And.intro))
  | wrssrc v => cases h; exact ownEffect_withPacket (.stores 8 (be32 v) (fun _ => And.intro))
  | wrcsrc entries => exact wrcsrc_ownEffect entries h
  | xput profile data => exact xput_ownEffect profile data h
  | alloc size => exact alloc_ownEffect size h
  | load bytes => exact load_ownEffect bytes h
  | free => cases h; exact ownEffect_withPacket (.releases rfl)
  | ser | rdv | rdp | rdx | rdcc | rdm | rdpt | rdseq | rdts | rdssrc | rdcsrc | hlen | plen | pview | xprof | xview =>
    exact ownEffect_of_readCommand (by simp [readCommands]) h

/-! ## The bytes -/

/-- A byte that is not a command's own reads as before. -/
theorem byte_of_not_writtenByte {i : Instr} {s t : State} (h : exec i s = .next t) {a : Nat} (ha : ¬ WrittenByte i s a) :
    t.byte a = s.byte a := by
  cases ownEffect_of_exec h with
  | answers hbuf _ _ hresets => exact State.byte_congr hbuf hresets a
  | stores lo bs own => exact State.byte_store_outside s lo bs (by by_contra hin; exact ha (own a (by omega) (by omega)))
  | storesCsrc entries hi =>
    subst hi
    obtain ⟨h0, hlist⟩ := not_or.mp ha
    exact s.storeCsrc_byte_other entries h0 (by omega)
  | creates _ bs _ _ own => exact State.byte_store_outside s 0 bs (.inr (by by_contra hin; exact ha (own a (by omega))))
  | releases _ => rfl

/-- Without a packet, or while the latch is set, a command that needs a packet fails. -/
theorem fails_of_not_ready {i : Instr} (hc : createsPacket i = false) {s t : State} (hr : ¬ Ready s) (h : exec i s = .next t) :
    ∃ st, t = s.fail st := by
  cases hf : s.fault with
  | true => exact ⟨_, Host.Outcome.next.inj (h.symm.trans (answersOnly_faulted i hf))⟩
  | false =>
    have hv : s.valid = false := Bool.eq_false_iff.mpr fun hv => hr ⟨hf, hv⟩
    rcases needsPacket_or_illegalCommand hc s with hn | hx
    · exact ⟨_, Host.Outcome.next.inj (h.symm.trans (hn.2 hf hv))⟩
    · exact ⟨_, Host.Outcome.next.inj (h.symm.trans (hx.trans (congrArg _ (illegalCommand_of_noFault hf))))⟩

/-- The bytes at `LEN` and above: with a packet, each store of a command that needs one lies below. -/
theorem byte_beyond_len {i : Instr} {s t : State} (hc : ControlInv s) (hi : createsPacket i = false) (h : exec i s = .next t)
    {a : Nat} (ha : s.len.toNat ≤ a) : t.byte a = s.byte a := by
  by_cases hr : Ready s
  · have h12 := (hc.valid_len hr.2).1
    cases effect_of_exec h with
    | fails _ _ _ | faults _ | reads _ _ _ | releases _ => rfl
    | writes _ lo bs hin => exact State.byte_store_outside s lo bs (.inr (by omega))
    | writesList _ b entries hin =>
      rw [State.done_byte, State.byte_store_outside _ _ _ (.inr (by rw [entriesToBytes_length]; omega)), State.byte_store_one,
        if_neg (by omega)]
    | creates _ hv _ _ _ _ _ _ => rw [hr.2] at hv; cases hv
  · obtain ⟨st, rfl⟩ := fails_of_not_ready hi hr h
    rfl

/-- Settles O43: a command stores its own bytes, and with a packet the effects of a command lie below `LEN`. -/
theorem commandsWriteOnlyTheirBytes : Obligations.CommandsWriteOnlyTheirBytes := fun _ _ _ h =>
  ⟨fun _ ha => byte_of_not_writtenByte h ha, fun hc hi _ ha => byte_beyond_len hc hi h ha⟩

/-! ## `LEN`, `VALID`, `BUF_CAP` -/

/-- A command that neither creates nor releases the packet. -/
theorem same_len_valid_of_exec {i : Instr} {s t : State} (h : exec i s = .next t) (hc : createsPacket i = false) (hi : i ≠ .free) :
    t.len = s.len ∧ t.valid = s.valid := by
  cases ownEffect_of_exec h with
  | answers _ hlen hvalid _ => exact ⟨hlen, hvalid⟩
  | stores _ _ _ | storesCsrc _ _ => exact ⟨rfl, rfl⟩
  | creates hc' _ _ _ _ => rw [hc] at hc'; cases hc'
  | releases hi' => exact absurd hi' hi

/-- The direction in which `VALID` changes. -/
theorem valid_of_exec {i : Instr} {s t : State} (h : exec i s = .next t) (hv : t.valid ≠ s.valid) :
    (createsPacket i = true ∧ t.valid = true) ∨ (i = .free ∧ t.valid = false) := by
  cases ownEffect_of_exec h with
  | answers _ _ hvalid _ => exact absurd hvalid hv
  | stores _ _ _ | storesCsrc _ _ => exact absurd rfl hv
  | creates hc _ _ _ _ => exact .inl ⟨hc, rfl⟩
  | releases hi => exact .inr ⟨hi, rfl⟩

theorem Effect.bufCap {s t : State} (he : Effect s t) : t.bufCap = s.bufCap := by
  rcases he.failure_or_success with ⟨_, _, _, rfl⟩ | rfl | ⟨_, _, _, _, hcap, _⟩
  · rfl
  · rfl
  · exact hcap

/-- Settles O44: `OwnEffect` names the commands that create and release; no effect and no reset touches `BUF_CAP`. -/
theorem onlyCreationAndReleaseChangeLenAndValid : Obligations.OnlyCreationAndReleaseChangeLenAndValid := by
  refine ⟨fun i s t h hlen => ?_, fun i s t => valid_of_exec, fun s t => ?_⟩
  · by_contra hc
    obtain ⟨hcreates, hfree⟩ := not_or.mp hc
    exact hlen (same_len_valid_of_exec h (Bool.eq_false_iff.mpr hcreates) hfree).1
  · exact step_keeps (P := fun u => u.bufCap = s.bufCap) (fun _ _ h => h) (fun _ h => h) (fun _ _ h he => he.bufCap.trans h) rfl

end Sys2Proof.Machine
end

section
/-! PROOF. The declared header (10_state.md R33, 70_reset_and_hazards.md R243, R245): it stays inside `LEN` as long as byte 0 and
the word count declare no longer one, and while it does every read command answers `OK`. -/
namespace Sys2Proof

/-! ## The decoder gives well-formed commands only (log entry 10) -/

theorem decodeCommand_eq_ok {w : CmdWord} {din : List Byte} {i : Instr} (h : decodeCommand w din = .ok i) :
    ∃ o, decodeWord w = .ok o ∧ din.length = dinBytes w ∧ i = o.instr w din := by
  unfold decodeCommand at h
  split at h
  · cases h
  · rename_i hlen
    split at h
    · cases h
    · rename_i o ho
      cases h
      exact ⟨o, ho, not_not.mp hlen, rfl⟩

theorem wellFormed_of_decodeCommand {w : CmdWord} {din : List Byte} {i : Instr} (h : decodeCommand w din = .ok i) :
    i.wellFormed = true := by
  obtain ⟨o, ho, hlen, rfl⟩ := decodeCommand_eq_ok h
  have ha32 := w.a32.isLt
  obtain ⟨_, _, _, hrange⟩ := (decodeWord_eq_ok_iff w o).mp ho
  rw [dinBytes, ho] at hlen
  cases o with
  | load | xput => exact decide_eq_true (hlen.trans_lt ha32)
  | wrcsrc =>
    have hcount : (Machine.bytesToEntries din).length = w.a32.toNat := Machine.bytesToEntries_length hlen
    exact decide_eq_true (by rw [hcount]; exact Nat.le_of_lt_succ hrange)
  | _ => rfl

end Sys2Proof

namespace Sys2Proof.Machine

/-! ## When a header is no longer than before -/

/-- A header is declared by the CSRC count, the extension flag and the word count alone. -/
theorem DeclaresHeader.no_longer {rd rd' : Nat → Byte} {h : Nat} (hd : DeclaresHeader rd h) (hcount : csrcCount rd' = csrcCount rd)
    (hflag : hasExtension rd' → hasExtension rd ∧ wordCount rd' = wordCount rd) : ∃ h', DeclaresHeader rd' h' ∧ h' ≤ h := by
  by_cases hx' : hasExtension rd'
  · obtain ⟨hx, hwords⟩ := hflag hx'
    have hsame : h = 12 + 4 * csrcCount rd + (4 + 4 * wordCount rd) := hd.unique (.inl ⟨hx, rfl⟩)
    exact ⟨h, .inl ⟨hx', by rw [hcount, hwords, hsame]⟩, Nat.le_refl h⟩
  · have hge := hd.ge
    exact ⟨_, .inr ⟨hx', rfl⟩, by rwa [hcount]⟩

/-- Two byte sequences with the same CSRC count have the word count at the same place. -/
theorem wordCount_congr {rd rd' : Nat → Byte} (hcount : csrcCount rd' = csrcCount rd)
    (h2 : rd' (extensionOffset rd + 2) = rd (extensionOffset rd + 2))
    (h3 : rd' (extensionOffset rd + 3) = rd (extensionOffset rd + 3)) : wordCount rd' = wordCount rd := by
  have hoff : extensionOffset rd' = extensionOffset rd := by rw [extensionOffset, hcount]
  unfold wordCount number16
  rw [hoff, h2]
  exact congrArg _ (congrArg BitVec.toNat h3)

theorem extractLsb'_low_congr {b b' : Byte} (h : ∀ j, j < 4 → b'.getLsbD j = b.getLsbD j) :
    b'.extractLsb' 0 4 = b.extractLsb' 0 4 := by
  apply BitVec.eq_of_getLsbD_eq
  intro j hj
  rw [BitVec.getLsbD_extractLsb', BitVec.getLsbD_extractLsb', Nat.zero_add, h j hj]

/-! ## The commands that do not lengthen it -/

theorem clrXBit_getLsbD_own (b : Byte) : (clrXBit b).getLsbD 4 = false := by simp [clrXBit]

section
variable {i : Instr} {s t : State} (hm : mayLengthenHeader i = false) (hc : createsPacket i = false) (h : exec i s = .next t)
include hm hc h

/-- `CLRX` apart, they keep the CSRC count and the extension flag: the low five bits of byte 0. -/
theorem low_bits_of_exec {j : Nat} (hj : j < 5) (hx : j = 4 → i ≠ .clrx) : (t.byte 0).getLsbD j = (s.byte 0).getLsbD j := by
  cases i with
  | alloc _ | load _ => cases hc
  | setx | wrcc _ | wrcsrc _ | xput _ _ => cases hm
  | wrv _ =>
    have hown : ¬ (0 = 0 ∧ (j = 6 ∨ j = 7)) := by omega
    exact fieldWritesDisturbNoOtherBit _ s t h 0 j hown
  | setp | clrp =>
    have hown : ¬ (0 = 0 ∧ j = 5) := by omega
    exact fieldWritesDisturbNoOtherBit _ s t h 0 j hown
  | clrx =>
    have hown : ¬ (0 = 0 ∧ j = 4) := fun hj4 => hx hj4.2 rfl
    exact fieldWritesDisturbNoOtherBit _ s t h 0 j hown
  | setm | clrm | wrpt _ => rw [byte_of_not_writtenByte h Nat.zero_ne_one]
  | wrseq _ | wrts _ | wrssrc _ => rw [byte_of_not_writtenByte h fun hw => Nat.not_succ_le_zero _ hw.1]
  | ser | free | rdv | rdp | rdx | rdcc | rdm | rdpt | rdseq | rdts | rdssrc | rdcsrc | hlen | plen | pview | xprof | xview =>
    rw [byte_of_not_writtenByte h not_false]

theorem csrcCount_of_exec : csrcCount t.byte = csrcCount s.byte := by
  rw [csrcCount, extractLsb'_low_congr (b := s.byte 0) fun j hj => low_bits_of_exec hm hc h (by omega) (by omega)]

/-- None of them raises the flag. -/
theorem hasExtension_of_exec (hx : hasExtension t.byte) : hasExtension s.byte := by
  by_cases hi : i = .clrx
  · subst hi
    by_cases hr : Ready s
    · obtain ⟨u, hu, _, _, _, hbyte⟩ := writes_of_storeByte (i := .clrx) rfl hr rfl
      cases hu.symm.trans h
      rw [hasExtension, hbyte, clrXBit_getLsbD_own] at hx
      cases hx
    · obtain ⟨st, rfl⟩ := fails_of_not_ready hc hr h
      exact hx
  · rwa [hasExtension, ← low_bits_of_exec hm hc h (j := 4) (by omega) fun _ => hi]

/-- None of them writes behind the fixed header. -/
theorem byte_behind_header_of_exec {a : Nat} (ha : 12 ≤ a) : t.byte a = s.byte a := by
  apply byte_of_not_writtenByte h
  cases i with
  | alloc _ | load _ => cases hc
  | setx | wrcc _ | wrcsrc _ | xput _ _ => cases hm
  | wrv _ | setp | clrp | clrx => exact fun (hw : a = 0) => by omega
  | setm | clrm | wrpt _ => exact fun (hw : a = 1) => by omega
  | wrseq _ => exact fun (hw : 2 ≤ a ∧ a < 4) => by omega
  | wrts _ => exact fun (hw : 4 ≤ a ∧ a < 8) => by omega
  | wrssrc _ => exact fun (hw : 8 ≤ a ∧ a < 12) => by omega
  | ser | free | rdv | rdp | rdx | rdcc | rdm | rdpt | rdseq | rdts | rdssrc | rdcsrc | hlen | plen | pview | xprof | xview =>
    exact not_false

/-- The header declared after them is no longer than before. -/
theorem declaresHeader_of_exec {n : Nat} (hd : DeclaresHeader s.byte n) : ∃ n', DeclaresHeader t.byte n' ∧ n' ≤ n := by
  have hcount := csrcCount_of_exec hm hc h
  have hbehind : ∀ a, 12 ≤ a → t.byte a = s.byte a := fun _ ha => byte_behind_header_of_exec hm hc h ha
  refine hd.no_longer hcount fun hx => ⟨hasExtension_of_exec hm hc h hx, ?_⟩
  exact wordCount_congr hcount (hbehind _ (by unfold extensionOffset; omega)) (hbehind _ (by unfold extensionOffset; omega))

end

/-! ## `LOAD` -/

/-- The packet of bytes that hold the header they declare holds it too. -/
theorem State.loadBytes_holds_header (s : State) {bytes : List Byte} (hlt : bytes.length < 4294967296) {h : Nat}
    (hd : DeclaresHeader (offered bytes) h) (hl : h ≤ bytes.length) :
    DeclaresHeader (s.loadBytes bytes).byte h ∧ h ≤ (s.loadBytes bytes).len.toNat := by
  refine ⟨hd.congr fun a ha => (offered_of_isBytesAt (s.loadBytes_isBytesAt bytes) (by omega)).symm, ?_⟩
  have hlen : (s.loadBytes bytes).len.toNat = bytes.length := Nat.mod_eq_of_lt hlt
  rwa [hlen]

/-! ## The invariant -/

/-- A command that does not lengthen the header keeps it inside `LEN`. -/
theorem HeaderFits.exec {i : Instr} {s t : State} (hfits : HeaderFits s) (hm : mayLengthenHeader i = false)
    (hw : i.wellFormed = true) (h : exec i s = .next t) : HeaderFits t := by
  cases hc : createsPacket i with
  | true =>
    cases i with
    | alloc _ => cases hm
    | load bytes =>
      rcases load_cases bytes s with ⟨st, hexec⟩ | ⟨⟨n, hd, hl⟩, hexec⟩
      · cases hexec.symm.trans h
        exact hfits
      · cases hexec.symm.trans h
        exact fun _ => ⟨n, s.loadBytes_holds_header (of_decide_eq_true hw) hd hl⟩
    | _ => cases hc
  | false =>
    by_cases hr : Ready s
    · by_cases hi : i = .free
      · subst hi
        cases (exec_free hr).symm.trans h
        exact nofun
      · obtain ⟨n, hd, hl⟩ := hfits hr.2
        obtain ⟨n', hd', hle⟩ := declaresHeader_of_exec hm hc h hd
        exact fun _ => ⟨n', hd', by rw [(same_len_valid_of_exec h hc hi).1]; omega⟩
    · obtain ⟨st, rfl⟩ := fails_of_not_ready hc hr h
      exact hfits

theorem HeaderFits.illegalCommand {s : State} (hfits : HeaderFits s) : HeaderFits (illegalCommand s) := by
  cases hf : s.fault with
  | true => rw [illegalCommand_of_fault hf]; exact hfits
  | false => rw [illegalCommand_of_noFault hf]; exact hfits

/-- Settles O47: idle, reset and an illegal word leave the packet or take it away; of the commands `HeaderFits.exec` speaks. -/
theorem stepKeepsTheHeaderFitting : Obligations.StepKeepsTheHeaderFitting := by
  intro s t hfits h hm
  rcases step_cases h with ⟨_, rfl⟩ | ⟨rest, _, rfl⟩ | ⟨w, din, rest, i, hp, hd, hexec⟩ | ⟨w, din, rest, _, rfl⟩
  · exact hfits
  · exact nofun
  · exact HeaderFits.exec (s := { s with port := rest }) hfits (hm w din rest i hp hd) (wellFormed_of_decodeCommand hd) hexec
  · exact HeaderFits.illegalCommand (s := { s with port := rest }) hfits

/-! ## Reading a packet whose header fits -/

/-- WHILE THE HEADER FITS NO READ COMMAND FAULTS (70_reset_and_hazards.md R243). -/
theorem readCommand_answers_ok {u : State} (hr : Ready u) {h : Nat} (hd : DeclaresHeader u.byte h) (hl : h ≤ u.len.toNat)
    {i : Instr} (hi : i ∈ readCommands) : ∃ v dout, AnswersOnly i u .ok v dout := by
  have hlist : 12 + 4 * csrcCount u.byte ≤ u.len.toNat := hd.ge.trans hl
  have hregion (hx : hasExtension u.byte) : extensionOffset u.byte + 4 + 4 * wordCount u.byte ≤ u.len.toNat := by
    have hlen := hd.unique (.inl ⟨hx, rfl⟩)
    unfold extensionOffset
    omega
  cases i with
  | rdv | rdp | rdx | rdcc | rdm | rdpt | rdseq | rdts | rdssrc => exact ⟨_, _, answersOnly_of_value rfl hr rfl⟩
  | ser => exact ⟨_, _, ser_answersOnly hr⟩
  | rdcsrc => exact ⟨_, _, rdcsrc_answersOnly hr hlist⟩
  | hlen => exact ⟨_, _, hlen_answersOnly hr (hd.not_countOutOfReach hl) hd⟩
  | plen => exact ⟨_, _, plen_answersOnly hr hd hl⟩
  | pview => exact ⟨_, _, pview_answersOnly hr hd hl⟩
  | xprof =>
    by_cases hx : hasExtension u.byte
    · have hreach := hregion hx
      exact ⟨_, _, xprof_answersOnly hr hx (by omega)⟩
    · exact ⟨_, _, xprof_answersOnly_zero hr hx⟩
  | xview =>
    by_cases hx : hasExtension u.byte
    · exact ⟨_, _, xview_answersOnly hr hx (hregion hx)⟩
    · exact ⟨_, _, xview_answersOnly_empty hr hx⟩
  | alloc _ | load _ | free | wrv _ | setp | setx | wrcc _ | setm | wrpt _ | wrseq _ | wrts _ | wrssrc _ | wrcsrc _ | clrp | clrx
  | clrm | xput _ _ => simp [readCommands] at hi

/-- Settles O39: an accepted `LOAD` leaves a header that fits, and the bytes kept declare it still. -/
theorem afterLoadEveryReadAnswersOk : Obligations.AfterLoadEveryReadAnswersOk := by
  intro bytes s t u hlt _ hv hload ht hr hlen h0 hcount i hi
  have hnone : HeaderFits s := fun hpacket => absurd (hv.symm.trans hpacket) Bool.false_ne_true
  have hfits : HeaderFits t := hnone.exec (i := .load bytes) rfl (decide_eq_true hlt) hload
  obtain ⟨n, hd, hl⟩ := hfits ht
  have hsame : csrcCount u.byte = csrcCount t.byte := by rw [csrcCount, h0]
  obtain ⟨n', hd', hle⟩ := hd.no_longer hsame fun hx => by
    rw [hasExtension, h0] at hx
    exact ⟨hx, wordCount_congr hsame (hcount hx).1 (hcount hx).2⟩
  exact readCommand_answers_ok hr hd' (by rw [hlen]; omega) hi

end Sys2Proof.Machine
end

section
/-! PROOF. Every command in two states at once: what it does depends on the packet, `BUF_CAP` and `allocs` alone (10_state.md R21,
20_memory.md R64, R67), so neither on the bytes beyond `LEN` nor on the port. -/
namespace Sys2Proof.Machine

/-! ## The same effect in two states -/

/-- The two states agree in all that a command can see: what a read command can, `BUF_CAP`, and the count of `ALLOC`s. -/
structure SameBlock (s s' : State) : Prop extends SamePacket s s' where
  bufCap : s'.bufCap = s.bufCap
  allocs : s'.allocs = s.allocs

/-- From `s` and `s'` to `t` and `t'` by the same effect: an answer, the same stores, the same packet, or release. The counts of
`ALLOC`s that creation leaves are equal if they were. -/
inductive EffectsAlike (s s' : State) : State → State → Prop
  | answers {t t' : State} (h : AnswersAlike s s' t t') : EffectsAlike s s' t t'
  | stores (a : Nat) (bs : List Byte) : EffectsAlike s s' (s.store a bs).done (s'.store a bs).done
  | storesList (b : Byte) (bs : List Byte) : EffectsAlike s s' ((s.store 0 [b]).store 12 bs).done ((s'.store 0 [b]).store 12 bs).done
  | creates (bs : List Byte) (len : Word) (k k' : Nat) (hlen : len.toNat ≤ bs.length) (hk : s'.allocs = s.allocs → k' = k) :
      EffectsAlike s s' { s.store 0 bs with len := len, valid := true, allocs := k }.done
        { s'.store 0 bs with len := len, valid := true, allocs := k' }.done
  | releases : EffectsAlike s s' { s with valid := false, len := 0#32 }.done { s' with valid := false, len := 0#32 }.done

/-- `exec i` has the same effect in both states. -/
def EffectAlike (i : Instr) (s s' : State) : Prop :=
  ∃ t t', exec i s = .next t ∧ exec i s' = .next t' ∧ EffectsAlike s s' t t'

section
variable {s s' : State}

theorem EffectsAlike.fails (st : Status) : EffectsAlike s s' (s.fail st) (s'.fail st) := .answers (.fails st)

/-- Two bodies with the same test. -/
theorem EffectsAlike.ite {c : Prop} [Decidable c] {x x' y y' : State} (hx : EffectsAlike s s' x x') (hy : EffectsAlike s s' y y') :
    EffectsAlike s s' (if c then x else y) (if c then x' else y') := by
  by_cases hc : c
  · rwa [if_pos hc, if_pos hc]
  · rwa [if_neg hc, if_neg hc]

variable (h : SameBlock s s')
include h

theorem SameBlock.illegalCommand : EffectsAlike s s' (illegalCommand s) (illegalCommand s') := by
  unfold Machine.illegalCommand
  rw [h.fault]
  exact .ite (.fails _) (.fails _)

/-- From the bodies to the whole commands, past either prologue. -/
theorem SameBlock.withPacket {body body' : State} (hb : s.valid = true → EffectsAlike s s' body body') :
    EffectsAlike s s' (withPacket s body) (withPacket s' body') := by
  rcases withPacket_cases s body with ⟨hf, e⟩ | ⟨hf, hv, e⟩ | ⟨hr, e⟩ <;> rw [e]
  · rw [withPacket_faulted (h.fault.trans hf)]
    exact .fails _
  · rw [withPacket_noPacket (h.fault.trans hf) (h.valid.trans hv)]
    exact .fails _
  · rw [withPacket_ready ⟨h.fault.trans hr.1, h.valid.trans hr.2⟩]
    exact hb hr.2

theorem SameBlock.withoutPacket {body body' : State} (hb : EffectsAlike s s' body body') :
    EffectsAlike s s' (withoutPacket s body) (withoutPacket s' body') := by
  rcases withoutPacket_cases s body with ⟨hf, e⟩ | ⟨hr, e⟩ | ⟨hf, hv, e⟩ <;> rw [e]
  · rw [withoutPacket_faulted (h.fault.trans hf)]
    exact .fails _
  · rw [withoutPacket_hasPacket (h.fault.trans hr.1) (h.valid.trans hr.2)]
    exact .fails _
  · rw [withoutPacket_empty (h.fault.trans hf) (h.valid.trans hv)]
    exact hb

/-- A setter. -/
theorem SameBlock.store {a : Nat} {bs bs' : List Byte} (hbs : s.valid = true → bs' = bs) :
    EffectsAlike s s' (Machine.withPacket s (s.store a bs).done) (Machine.withPacket s' (s'.store a bs').done) :=
  h.withPacket fun hv => by rw [hbs hv]; exact .stores a bs

/-! ## The commands -/

theorem readCommand_effectAlike {i : Instr} (hi : i ∈ readCommands) : EffectAlike i s s' := by
  obtain ⟨t, t', ht, ht', ha⟩ := readCommand_alike h.toSamePacket hi
  exact ⟨t, t', ht, ht', .answers ha⟩

theorem wrcsrc_effectAlike (entries : List Word) : EffectAlike (.wrcsrc entries) s s' := by
  by_cases hn : entries.length ≤ 15
  · refine ⟨_, _, exec_wrcsrc hn s, exec_wrcsrc hn s', h.withPacket fun hv => ?_⟩
    have hguard : s'.guard 12 (4 * entries.length) = s.guard 12 (4 * entries.length) := by rw [State.guard, State.guard, h.len]
    rw [hguard, State.storeCsrc, State.storeCsrc, h.byte_header hv (by omega)]
    exact .ite (.storesList _ _) (.answers .faults)
  · have hlong : 15 < entries.length := Nat.lt_of_not_le hn
    exact ⟨_, _, congrArg Host.Outcome.next (if_pos hlong), congrArg Host.Outcome.next (if_pos hlong), h.illegalCommand⟩

theorem xput_effectAlike (profile : Half) (data : List Byte) : EffectAlike (.xput profile data) s s' := by
  refine ⟨_, _, rfl, rfl, h.withPacket fun hv => ?_⟩
  rw [h.xoff hv, h.len]
  exact .ite (.fails _) (.stores _ _)

theorem alloc_effectAlike (size : Word) : EffectAlike (.alloc size) s s' := by
  refine ⟨_, _, rfl, rfl, h.withoutPacket ?_⟩
  rw [h.bufCap, h.allocs]
  exact .ite (.fails _) (.creates _ size _ _ (by rw [drawnBytes_length]) fun _ => rfl)

theorem load_effectAlike (bytes : List Byte) : EffectAlike (.load bytes) s s' := by
  refine ⟨_, _, rfl, rfl, h.withoutPacket ?_⟩
  rw [h.bufCap]
  refine .ite (.fails _) (.ite (.fails _) ?_)
  cases headerLength (offered bytes) bytes.length with
  | none => exact .fails _
  | some n =>
    exact .ite (.fails _) (.creates bytes _ s.allocs s'.allocs (by rw [BitVec.toNat_ofNat]; exact Nat.mod_le _ _) id)

/-- EVERY COMMAND HAS THE SAME EFFECT in two states that agree in what it can see. -/
theorem exec_effectAlike (i : Instr) : EffectAlike i s s' := by
  cases i with
  | wrv _ | setp | clrp | setx | clrx | wrcc _ | setm | clrm | wrpt _ =>
    exact ⟨_, _, rfl, rfl, h.store fun hv => by rw [h.byte_header hv (by omega)]⟩
  | wrseq _ | wrts _ | wrssrc _ => exact ⟨_, _, rfl, rfl, h.store fun _ => rfl⟩
  | wrcsrc entries => exact wrcsrc_effectAlike h entries
  | xput profile data => exact xput_effectAlike h profile data
  | alloc size => exact alloc_effectAlike h size
  | load bytes => exact load_effectAlike h bytes
  | free => exact ⟨_, _, rfl, rfl, h.withPacket fun _ => .releases⟩
  | ser | rdv | rdp | rdx | rdcc | rdm | rdpt | rdseq | rdts | rdssrc | rdcsrc | hlen | plen | pview | xprof | xview =>
    exact readCommand_effectAlike h (by simp [readCommands])

end

/-! ## The bytes beyond `LEN` -/

section
variable {s s' t t' : State}

theorem EffectsAlike.same_response (he : EffectsAlike s s' t t') :
    ∃ r, t.replies = s.replies ++ [r] ∧ t'.replies = s'.replies ++ [r] := by
  cases he with
  | answers ha => exact ha.same_response
  | stores _ _ | storesList _ _ | creates _ _ _ _ _ _ | releases => exact ⟨⟨.ok, 0#32, []⟩, rfl, rfl⟩

/-- After the same store a byte is equal, if it was equal or lies in the store. -/
theorem byte_store_congr {lo a : Nat} (bs : List Byte) (hb : a < lo ∨ lo + bs.length ≤ a → s'.byte a = s.byte a) :
    (s'.store lo bs).byte a = (s.store lo bs).byte a := by
  by_cases hout : a < lo ∨ lo + bs.length ≤ a
  · rw [State.byte_store_outside s' lo bs hout, State.byte_store_outside s lo bs hout, hb hout]
  · obtain ⟨k, rfl⟩ := Nat.exists_eq_add_of_le (Nat.le_of_not_lt (not_or.mp hout).1)
    rw [State.byte_store_inside s' lo bs (by omega), State.byte_store_inside s lo bs (by omega)]

/-- The same effect keeps two states indistinct. -/
theorem EffectsAlike.indistinct (he : EffectsAlike s s' t t') (hi : Indistinct s s') : Indistinct t t' := by
  obtain ⟨hcap, hlen, hvalid, hfault, hcause, hallocs, hbyte⟩ := hi
  cases he with
  | answers ha =>
    cases ha with
    | fails _ | reads _ _ => exact ⟨hcap, hlen, hvalid, hfault, hcause, hallocs, hbyte⟩
    | faults => exact ⟨hcap, hlen, hvalid, rfl, rfl, hallocs, hbyte⟩
  | stores _ bs => exact ⟨hcap, hlen, hvalid, hfault, hcause, hallocs, fun a ha => byte_store_congr bs fun _ => hbyte a ha⟩
  | storesList _ bs =>
    exact ⟨hcap, hlen, hvalid, hfault, hcause, hallocs, fun a ha =>
      byte_store_congr bs fun _ => byte_store_congr [_] fun _ => hbyte a ha⟩
  | creates bs len k k' hle hk =>
    refine ⟨hcap, rfl, rfl, hfault, hcause, hk hallocs, fun a ha => ?_⟩
    have hin : a < bs.length := ha.trans_le hle
    exact byte_store_congr (s := s) (s' := s') (lo := 0) bs fun hout => by omega
  | releases => exact ⟨hcap, rfl, rfl, hfault, hcause, hallocs, nofun⟩

end

/-- Settles O45: indistinct states agree in what a command can see, so it has the same effect in both. -/
theorem bytesBeyondLenAreUnobservable : Obligations.BytesBeyondLenAreUnobservable := by
  intro i s s' hc hi
  have ⟨hcap, hlen, hvalid, hfault, _, hallocs, hbyte⟩ := hi
  obtain ⟨t, t', ht, ht', he⟩ :=
    exec_effectAlike ⟨SamePacket.of_controlInv hc hvalid hfault hlen hbyte, hcap, hallocs⟩ i
  obtain ⟨r, hr, hr'⟩ := he.same_response
  exact ⟨t, t', r, ht, ht', hr, hr', he.indistinct hi⟩

/-! ## The port -/

/-- No command reads or writes the port. -/
theorem exec_with_port {i : Instr} {s t : State} (h : exec i s = .next t) (port : List Event) :
    exec i { s with port := port } = .next { t with port := port } := by
  have hsame : SameBlock s { s with port := port } := ⟨⟨rfl, rfl, rfl, fun _ _ _ => rfl⟩, rfl, rfl⟩
  obtain ⟨u, u', hu, hu', he⟩ := exec_effectAlike hsame i
  cases hu.symm.trans h
  rw [hu']
  cases he with
  | answers ha => cases ha <;> rfl
  | stores _ _ | storesList _ _ | releases => rfl
  | creates _ _ _ _ _ hk => cases hk rfl; rfl

theorem run_succ {M : Host.Core} {s t : M.State} (h : M.step s = .next t) (k : Nat) : M.run (k + 1) s = M.run k t := by
  simp only [Host.Core.run, h]

theorem applyAll_cons {i : Instr} {s t : State} (h : exec i s = .next t) (is : List Instr) : applyAll (i :: is) s = applyAll is t := by
  simp only [applyAll, h]

/-- Settles O9, by induction on the commands: a step takes the first from the port, and the rest of the port waits. -/
theorem runAppliesTheCommandsInOrder : Obligations.RunAppliesTheCommandsInOrder := by
  intro is
  induction is with
  | nil => exact fun _ _ _ => rfl
  | cons i is ih =>
    intro s rest hw
    obtain ⟨hi, his⟩ := List.forall_mem_cons.mp hw
    obtain ⟨t, ht, _⟩ := exec_effect i s
    have hstep : Sys2Proof.core.step { s with port := commandEvents (i :: is) ++ rest } =
        .next { t with port := commandEvents is ++ rest } :=
      (step_of_decodeCommand (s := { s with port := commandEvents (i :: is) ++ rest }) rfl (decodeCommand_encode hi)).trans
        (exec_with_port ht _)
    exact (run_succ hstep is.length).trans ((ih t rest his).trans (applyAll_cons (exec_with_port ht rest) is).symm)

end Sys2Proof.Machine
end

section
/-! PROOF. The port (60_exceptions.md R230, R231; 93_implementation_defined.md section 2): what a step does with each kind of event
at its head. -/
namespace Sys2Proof.Machine

/-! ## One step by the head of the port -/

section
variable {s : State} {w : CmdWord} {din : List Byte} {rest : List Event}

theorem step_idle (hp : s.port = []) : step s = .next s := by rw [step, hp]

theorem step_reset (hp : s.port = .reset :: rest) : step s = .next { s with port := rest }.resetEvent := by rw [step, hp]

/-- What cannot be presented stops the model (log entry 4). -/
theorem step_of_dinLength (hp : s.port = .command w din :: rest) (hlen : din.length ≠ dinBytes w) : step s = .fault .dinLength := by
  have hd : decodeCommand w din = .error .dinLength := if_pos hlen
  rw [step, hp]
  simp only [runCommand, hd]
  rfl

/-- A command with the `DIN` its word fixes is answered once, legal or not. -/
theorem step_of_presentable (hp : s.port = .command w din :: rest) (hlen : din.length = dinBytes w) :
    ∃ t r, step s = .next t ∧ t.port = rest ∧ t.replies = s.replies ++ [r] := by
  cases hw : decodeWord w with
  | ok o =>
    obtain ⟨t, r, ht, hr, hport, _⟩ := failedCommandsChangeNothing (o.instr w din) { s with port := rest }
    exact ⟨t, r, (step_of_decodeCommand hp (decodeCommand_of_ok hw hlen)).trans ht, hport, hr⟩
  | error e =>
    obtain rfl : din = [] := List.length_eq_zero_iff.mp (hlen.trans (dinBytes_of_error hw))
    refine ⟨_, ⟨if s.fault then .faulted else .errIllegal, 0#32, []⟩, step_of_error hw hp, ?_⟩
    unfold illegalCommand
    split
    · exact ⟨rfl, rfl⟩
    · exact ⟨rfl, rfl⟩

end

/-- Settles O5: a step hands the command decoded to `exec`. -/
theorem stepExecutesTheDecodedCommand : Obligations.StepExecutesTheDecodedCommand := fun _ _ _ _ _ => step_of_decodeCommand

/-- Settles O6: the two heads of the port on which no command is executed. -/
theorem idleStepAndUnpresentableDin : Obligations.IdleStepAndUnpresentableDin :=
  ⟨fun _ => step_idle, fun _ _ _ _ => step_of_dinLength⟩

/-- Nothing listed reads as the free values of the last reset (10_state.md R34). -/
theorem State.byte_of_unwritten {s : State} (hbuf : s.buf = []) (a : Nat) : s.byte a = Config.resetByte s.resets a := by
  rw [State.byte, hbuf]
  rfl

/-- Settles O7: the next state is `State.resetEvent`, whose `BUF` lists nothing; the latch is `reset_of_latch_cleared`. -/
theorem resetEventGivesTheResetValues : Obligations.ResetEventGivesTheResetValues :=
  ⟨fun _ _ hp => ⟨_, step_reset hp, rfl, rfl, rfl, rfl, State.byte_of_unwritten rfl, rfl, rfl, rfl, rfl, rfl⟩,
    fun _ _ => reset_of_latch_cleared, rfl, rfl, rfl, rfl, State.byte_of_unwritten rfl⟩

/-- Settles O8: by the event at the head of the port; `Event.presentable` is what `step_of_presentable` asks for. -/
theorem presentablePortNeverStops : Obligations.PresentablePortNeverStops := by
  intro s hall
  cases hp : s.port with
  | nil => exact ⟨s, step_idle hp, hp, nofun⟩
  | cons e rest =>
    cases e with
    | reset => exact ⟨_, step_reset hp, rfl, nofun⟩
    | command w din =>
      have hlen : din.length = dinBytes w := of_decide_eq_true (hall (.command w din) (by rw [hp]; exact List.mem_cons_self))
      obtain ⟨t, r, ht, hport, hr⟩ := step_of_presentable hp hlen
      exact ⟨t, ht, hport, fun _ _ _ _ => ⟨r, hr⟩⟩

end Sys2Proof.Machine
end

section
/-! PROOF. The bounds guard (20_memory.md R59, 60_exceptions.md R213): an access fails exactly beyond `LEN`, and a command faults
exactly in its row of the table. -/
namespace Sys2Proof.Machine

/-! ## The guarded accesses -/

section
variable {s : State} {a n : Nat}

theorem State.guard_eq_false (h : s.len.toNat < a + n) : ¬ s.guard a n = true := by rw [State.guard_eq_true]; omega

theorem State.memRead1_eq_some (h : a + 1 ≤ s.len.toNat) : s.memRead1 a = some (s.byte a) := if_pos (State.guard_eq_true.mpr h)

theorem State.memRead1_eq_none (h : s.len.toNat < a + 1) : s.memRead1 a = none := if_neg (State.guard_eq_false h)

theorem State.memRead4_eq_some (h : a + 4 ≤ s.len.toNat) : s.memRead4 a = some (rd32 s.byte a) :=
  if_pos (State.guard_eq_true.mpr h)

theorem State.memRead4_eq_none (h : s.len.toNat < a + 4) : s.memRead4 a = none := if_neg (State.guard_eq_false h)

theorem State.memWriteBytes_eq_some {bs : List Byte} (h : a + bs.length ≤ s.len.toNat) :
    s.memWriteBytes a bs = some (s.store a bs) := if_pos (State.guard_eq_true.mpr h)

theorem State.memWriteBytes_eq_none {bs : List Byte} (h : s.len.toNat < a + bs.length) : s.memWriteBytes a bs = none :=
  if_neg (State.guard_eq_false h)

end

/-- Settles O15: each access is its guard, and past it the bytes, their number, or the store. -/
theorem guardedAccessesStayInsideLen : Obligations.GuardedAccessesStayInsideLen := by
  intro s a
  refine ⟨fun n => State.memReadBytes_eq_none, fun n h => ⟨_, State.memReadBytes_eq_some h, isBytesAt_bytes s a n⟩,
    State.memRead1_eq_none, State.memRead1_eq_some, State.memRead2_eq_none, fun h => ⟨_, State.memRead2_eq_some h, rd16_toNat _ _⟩,
    State.memRead4_eq_none, fun h => ⟨_, State.memRead4_eq_some h, rd32_toNat _ _⟩, fun bs => State.memWriteBytes_eq_none,
    fun bs h => ⟨_, State.memWriteBytes_eq_some h, isBytesAt_store s a bs, fun _ hx => State.byte_store_outside s a bs hx, ?_, rfl⟩,
    fun _ => rfl, fun _ => rfl, fun _ => rfl⟩
  exact ⟨rfl, rfl, rfl, rfl, rfl, rfl, rfl, rfl⟩

/-! ## The table of R213 -/

/-- `exec i s` answers a next state without touching the latch. -/
def KeepsLatch (i : Instr) (s : State) : Prop := ∃ t, exec i s = .next t ∧ t.fault = s.fault ∧ t.fcause = s.fcause

theorem AnswersOnly.keepsLatch {i : Instr} {s : State} {st : Status} {v : Word} {d : List Byte} (h : AnswersOnly i s st v d) :
    KeepsLatch i s := ⟨_, h, rfl, rfl⟩

/-- Outside the two rows of `PLEN` and `PVIEW` the header fits. -/
theorem exists_header_of_not_malformed {s : State} (hb : ¬ BoundsFault .plen s) : ∃ h, DeclaresHeader s.byte h ∧ h ≤ s.len.toNat := by
  obtain ⟨h, hd⟩ := exists_declaresHeader s.byte
  exact ⟨h, hd, Nat.le_of_not_lt fun hlt => hb (.inr ⟨h, hd, hlt⟩)⟩

section
variable {s : State} (hr : Ready s)
include hr

/-- A command in whose row of the table the fault stands faults. -/
theorem takesFault_of_boundsFault {i : Instr} (hw : i.wellFormed = true) (hb : BoundsFault i s) : TakesFault i s := by
  cases i with
  | rdcsrc => exact rdcsrc_takesFault hr hb
  | wrcsrc entries => exact wrcsrc_takesFault (of_decide_eq_true hw) hr hb
  | hlen => exact hlen_takesFault hr hb
  | plen => exact plen_takesFault hr hb
  | pview => exact pview_takesFault hr hb
  | xprof => exact xprof_takesFault hr hb.1 hb.2
  | xview =>
    rcases hb with hc | ⟨hx, hl⟩
    · exact xview_takesFault_of_count hr hc
    · exact xview_takesFault_of_region hr hx hl
  | alloc _ | load _ | ser | free | rdv | rdp | rdx | rdcc | rdm | rdpt | rdseq | rdts | rdssrc | wrv _ | setp | setx | wrcc _
  | setm | wrpt _ | wrseq _ | wrts _ | wrssrc _ | clrp | clrx | clrm | xput _ _ => exact hb.elim

/-- A setter's body. -/
theorem keepsLatch_of_store {i : Instr} {a : Nat} {bs : List Byte} (h : exec i s = .next (withPacket s (s.store a bs).done)) :
    KeepsLatch i s := ⟨_, h.trans (congrArg Host.Outcome.next (withPacket_ready hr _)), rfl, rfl⟩

theorem xprof_keepsLatch (hb : ¬ BoundsFault .xprof s) : KeepsLatch .xprof s := by
  by_cases hx : hasExtension s.byte
  · exact (xprof_answersOnly hr hx (Nat.le_of_not_lt fun hlt => hb ⟨hx, hlt⟩)).keepsLatch
  · exact (xprof_answersOnly_zero hr hx).keepsLatch

theorem xview_keepsLatch (hb : ¬ BoundsFault .xview s) : KeepsLatch .xview s := by
  by_cases hx : hasExtension s.byte
  · exact (xview_answersOnly hr hx (Nat.le_of_not_lt fun hlt => hb (.inr ⟨hx, hlt⟩))).keepsLatch
  · exact (xview_answersOnly_empty hr hx).keepsLatch

theorem xput_keepsLatch (profile : Half) (data : List Byte) : KeepsLatch (.xput profile data) s := by
  have hexec := exec_xput profile data s
  rw [withPacket_ready hr] at hexec
  split at hexec
  · exact ⟨_, hexec, rfl, rfl⟩
  · exact ⟨_, hexec, rfl, rfl⟩

/-- Outside its row of the table a command leaves the latch alone. -/
theorem keepsLatch_of_not_boundsFault {i : Instr} (hw : i.wellFormed = true) (hb : ¬ BoundsFault i s) : KeepsLatch i s := by
  cases i with
  | alloc _ | load _ => exact AnswersOnly.keepsLatch ((needsNoPacket_of_createsPacket rfl s).2 hr.1 hr.2)
  | ser => exact (ser_answersOnly hr).keepsLatch
  | free => exact ⟨_, exec_free hr, rfl, rfl⟩
  | rdv | rdp | rdx | rdcc | rdm | rdpt | rdseq | rdts | rdssrc => exact (answersOnly_of_value rfl hr rfl).keepsLatch
  | wrv _ | setp | clrp | setx | clrx | wrcc _ | setm | clrm | wrpt _ | wrseq _ | wrts _ | wrssrc _ => exact keepsLatch_of_store hr rfl
  | rdcsrc => exact (rdcsrc_answersOnly hr (Nat.le_of_not_lt hb)).keepsLatch
  | wrcsrc entries => exact ⟨_, exec_wrcsrc_of_fits (of_decide_eq_true hw) hr (Nat.le_of_not_lt hb), rfl, rfl⟩
  | hlen =>
    obtain ⟨h, hd⟩ := exists_declaresHeader s.byte
    exact (hlen_answersOnly hr hb hd).keepsLatch
  | plen =>
    obtain ⟨h, hd, hl⟩ := exists_header_of_not_malformed hb
    exact (plen_answersOnly hr hd hl).keepsLatch
  | pview =>
    obtain ⟨h, hd, hl⟩ := exists_header_of_not_malformed hb
    exact (pview_answersOnly hr hd hl).keepsLatch
  | xprof => exact xprof_keepsLatch hr hb
  | xview => exact xview_keepsLatch hr hb
  | xput profile data => exact xput_keepsLatch hr profile data

end

/-- Settles O14: a command's own lemmas on both sides of its row. -/
theorem boundsFaultExactlyWhenTheTableSays : Obligations.BoundsFaultExactlyWhenTheTableSays := by
  intro i s hw hr
  refine ⟨takesFault_of_boundsFault hr hw, fun hb => ?_⟩
  obtain ⟨t, ht, hfault, hcause⟩ := keepsLatch_of_not_boundsFault hr hw hb
  exact ⟨t, ht, hfault.trans hr.1, hcause⟩

end Sys2Proof.Machine
end

section
/-! PROOF. Reading back what was written in the fixed header and the CSRC list (40_fixed_fields.md R132, 41_csrc.md R150, R151): the
getter's extraction undoes the setter's masked write, and the region read is the region stored. -/
namespace Sys2Proof.Machine

/-! ## Fields out of the byte they were put into -/

theorem fV_putV (b : Byte) (v : BitVec 2) : fV (putV b v) = v.setWidth 8 := by
  rw [fV_eq, putV_eq]
  exact congrArg _ BitVec.extractLsb'_append_eq_left

theorem fPT_putPT (b : Byte) (v : BitVec 7) : fPT (putPT b v) = v.setWidth 8 := by
  rw [fPT_eq, putPT_eq]
  exact congrArg _ BitVec.extractLsb'_append_eq_right

theorem fCC_putCC (b : Byte) (v : Word) : fCC (putCC b v) = (v.extractLsb' 0 4).setWidth 8 := by
  rw [fCC_eq, putCC_eq]
  exact congrArg _ BitVec.extractLsb'_append_eq_right

/-- The low four bits as a 32-bit value. -/
theorem setWidth_extractLsb'_low (v : Word) : (v.extractLsb' 0 4).setWidth 32 = v &&& 0xF#32 := by
  apply BitVec.eq_of_toNat_eq
  rw [BitVec.toNat_setWidth_of_le (by decide), BitVec.extractLsb'_toNat, Nat.shiftRight_zero, BitVec.toNat_and]
  exact (Nat.and_two_pow_sub_one_eq_mod v.toNat 4).symm

theorem fP_setPBit (b : Byte) : fP (setPBit b) = 1#8 := by revert b; decide
theorem fP_clrPBit (b : Byte) : fP (clrPBit b) = 0#8 := by revert b; decide
theorem fX_setXBit (b : Byte) : fX (setXBit b) = 1#8 := by revert b; decide
theorem fX_clrXBit (b : Byte) : fX (clrXBit b) = 0#8 := by revert b; decide
theorem fM_setMBit (b : Byte) : fM (setMBit b) = 1#8 := by revert b; decide
theorem fM_clrMBit (b : Byte) : fM (clrMBit b) = 0#8 := by revert b; decide

/-! ## A getter after a setter -/

section
variable {w r : Instr} {s : State} {a : Nat} {v val : Word} (hs : Ready s)
include hs

/-- A setter leaves the block ready, and the getter reads from the store. -/
theorem readsBack_of_store {bs : List Byte} (hw : exec w s = .next (withPacket s (s.store a bs).done))
    (hr : exec r (s.store a bs).done = .next (withPacket (s.store a bs).done ((s.store a bs).done.value v))) (hv : v = val) :
    ReadsBack w r val s :=
  ⟨_, hw.trans (congrArg Host.Outcome.next (withPacket_ready hs _)), answersOnly_of_value hr hs hv⟩

/-- The same for a field of one byte: `get` of the byte stored is the value. -/
theorem readsBack_of_storeByte {b : Byte} {get : Byte → Byte} (hw : exec w s = .next (withPacket s (s.store a [b]).done))
    (hr : ∀ t, exec r t = .next (withPacket t (t.value ((get (t.byte a)).setWidth 32)))) (hv : (get b).setWidth 32 = val) :
    ReadsBack w r val s := by
  refine readsBack_of_store hs hw (hr _) ?_
  rwa [State.done_byte, State.byte_store_one, if_pos rfl]

end

/-- Settles O21: each field out of the byte or bytes it was put into. -/
theorem fieldRoundTrips : Obligations.FieldRoundTrips := by
  intro s hs
  refine ⟨fun v => ?_, fun v => ?_, fun v => ?_, fun v => ?_, fun v => ?_, fun v => ?_, ?_, ?_, ?_, ?_, ?_, ?_⟩
  · exact readsBack_of_storeByte (get := fV) hs rfl (fun _ => rfl) (by rw [fV_putV, BitVec.setWidth_setWidth (by decide)])
  · exact readsBack_of_storeByte (get := fPT) hs rfl (fun _ => rfl) (by rw [fPT_putPT, BitVec.setWidth_setWidth (by decide)])
  · exact readsBack_of_storeByte (get := fCC) hs rfl (fun _ => rfl)
      (by rw [fCC_putCC, BitVec.setWidth_setWidth (by decide), setWidth_extractLsb'_low])
  · exact readsBack_of_store hs rfl rfl (congrArg _ (rd16_store_be16 s 2 v))
  · exact readsBack_of_store hs rfl rfl (rd32_store_be32 s 4 v)
  · exact readsBack_of_store hs rfl rfl (rd32_store_be32 s 8 v)
  · exact readsBack_of_storeByte (get := fP) hs rfl (fun _ => rfl) (by rw [fP_setPBit]; rfl)
  · exact readsBack_of_storeByte (get := fP) hs rfl (fun _ => rfl) (by rw [fP_clrPBit]; rfl)
  · exact readsBack_of_storeByte (get := fX) hs rfl (fun _ => rfl) (by rw [fX_setXBit]; rfl)
  · exact readsBack_of_storeByte (get := fX) hs rfl (fun _ => rfl) (by rw [fX_clrXBit]; rfl)
  · exact readsBack_of_storeByte (get := fM) hs rfl (fun _ => rfl) (by rw [fM_setMBit]; rfl)
  · exact readsBack_of_storeByte (get := fM) hs rfl (fun _ => rfl) (by rw [fM_clrMBit]; rfl)

/-! ## The CSRC list -/

/-- The count written is the count read. -/
theorem State.storeCsrc_csrcCount (s : State) {entries : List Word} (hn : entries.length ≤ 15) :
    csrcCount (s.storeCsrc entries).byte = entries.length := by
  rw [csrcCount, State.storeCsrc_byte_zero]
  have hlow : ((s.byte 0).extractLsb' 4 4 ++ BitVec.ofNat 4 entries.length).extractLsb' 0 4 = BitVec.ofNat 4 entries.length :=
    BitVec.extractLsb'_append_eq_right
  exact (congrArg BitVec.toNat hlow).trans (Nat.mod_eq_of_lt (by omega))

/-- The list stands where it was stored. -/
theorem State.storeCsrc_bytes (s : State) (entries : List Word) :
    (s.storeCsrc entries).bytes 12 (4 * entries.length) = entriesToBytes entries := by
  have hstored := State.bytes_store (s.store 0 [putCC (s.byte 0) (BitVec.ofNat 32 entries.length)]) 12 (entriesToBytes entries)
  rwa [entriesToBytes_length] at hstored

/-- Settles O25: after the two stores of `WRCSRC` the count and the region of `RDCSRC` are the list. -/
theorem csrcListReadsBack : Obligations.CsrcListReadsBack := by
  intro s entries hr hn hl
  have hcount : csrcCount (s.storeCsrc entries).done.byte = entries.length := s.storeCsrc_csrcCount hn
  have hread := rdcsrc_answersOnly (s := (s.storeCsrc entries).done) hr (by rw [hcount]; exact hl)
  rw [hcount] at hread
  refine ⟨_, _, exec_wrcsrc_of_fits hn hr hl, hread, ?_⟩
  exact (congrArg bytesToEntries (s.storeCsrc_bytes entries)).trans (bytesToEntries_entriesToBytes entries)

end Sys2Proof.Machine
end

section
/-! PROOF. The agreement of the derived lengths (42_derived.md R163): where `PLEN` answers `OK` the declared header fits, and all three
answers are computed from it. -/
namespace Sys2Proof.Machine

/-- A command answers one response. -/
theorem AnswersOnly.response_eq {i : Instr} {s : State} {st st' : Status} {v v' : Word} {d d' : List Byte}
    (h : AnswersOnly i s st v d) (h' : AnswersOnly i s st' v' d') : Response.mk st v d = ⟨st', v', d'⟩ :=
  response_unique (congrArg State.replies (Host.Outcome.next.inj (h.symm.trans h')))

/-- Fault entry is no answer `OK`. -/
theorem TakesFault.not_answersOnly_ok {i : Instr} {s : State} (h : TakesFault i s) (v : Word) (d : List Byte) :
    ¬ AnswersOnly i s .ok v d := fun h' =>
  nomatch response_unique (congrArg State.replies (Host.Outcome.next.inj (h.symm.trans h')))

/-- Settles O29: a header that does not fit would have made `PLEN` fault. -/
theorem derivedLengthsAgree : Obligations.DerivedLengthsAgree := by
  intro s p hr hp
  obtain ⟨h, hd, hl⟩ := exists_header_of_not_malformed fun hb => (plen_takesFault hr hb).not_answersOnly_ok p [] hp
  obtain rfl : p = BitVec.ofNat 32 (s.len.toNat - h) := congrArg Response.val (hp.response_eq (plen_answersOnly hr hd hl))
  refine ⟨_, _, hlen_answersOnly hr (hd.not_countOutOfReach hl) hd, ?_, pview_answersOnly hr hd hl, ?_⟩
  · rw [hd.toNat_ofNat, toNat_ofNat_len_sub]
    omega
  · rw [State.bytes_length, toNat_ofNat_len_sub]

end Sys2Proof.Machine
end

section
/-! PROOF. Reading back the extension (43_extension.md R176): what the readers answer in any state that holds a block where they look
for it, and `XPUT` leaves such a state. -/
namespace Sys2Proof.Machine

/-- The region behind profile and word count is the data with its padding (43_extension.md R173). -/
theorem HoldsBlock.bytes {t : State} {a : Nat} {profile : Half} {data : List Byte} (h : HoldsBlock t a profile data) :
    t.bytes (a + 4) (4 * ceil4 data.length) = data ++ List.replicate (pad data.length) 0x00#8 := by
  obtain ⟨_, _, ⟨_, hdata⟩, hzero⟩ := h
  have hd := add_pad data.length
  apply List.ext_getElem?
  intro k
  rcases Nat.lt_or_ge k (4 * ceil4 data.length) with hk | hk
  · rw [State.bytes_getElem? t _ _ hk]
    rcases Nat.lt_or_ge k data.length with hin | hout
    · rw [List.getElem?_append_left hin, hdata k hin]
    · rw [List.getElem?_append_right hout, List.getElem?_replicate_of_lt (by omega), hzero k hout hk]
  · rw [List.getElem?_eq_none (by rwa [State.bytes_length]),
      List.getElem?_eq_none (by rw [List.length_append, List.length_replicate]; omega)]

section
variable {t : State} {profile : Half} {data : List Byte} (hr : Ready t) (hx : hasExtension t.byte)
  (hb : HoldsBlock t (extensionOffset t.byte) profile data)
  (hl : extensionOffset t.byte + 4 + 4 * ceil4 data.length ≤ t.len.toNat)
include hr hx hb hl

theorem xprof_of_block : AnswersOnly .xprof t .ok (profile.setWidth 32) [] := by
  have hprofile : rd16 t.byte (extensionOffset t.byte) = profile := BitVec.eq_of_toNat_eq ((rd16_toNat _ _).trans hb.1)
  have hanswer := xprof_answersOnly hr hx (by omega)
  rwa [hprofile] at hanswer

theorem xview_of_block : AnswersOnly .xview t .ok (BitVec.ofNat 32 (4 * ceil4 data.length))
    (data ++ List.replicate (pad data.length) 0x00#8) := by
  have hwords : wordCount t.byte = ceil4 data.length := hb.2.1
  have hanswer := xview_answersOnly hr hx (by rwa [hwords])
  rwa [hwords, hb.bytes] at hanswer

theorem hlen_of_block :
    ∃ v, AnswersOnly .hlen t .ok v [] ∧ v.toNat = 12 + 4 * csrcCount t.byte + 4 + 4 * ceil4 data.length := by
  have hwords : wordCount t.byte = ceil4 data.length := hb.2.1
  have hd : DeclaresHeader t.byte (12 + 4 * csrcCount t.byte + (4 + 4 * wordCount t.byte)) := .inl ⟨hx, rfl⟩
  have hreach : ¬ CountOutOfReach t.byte t.len.toNat := fun hc => absurd hc.2 (by omega)
  exact ⟨_, hlen_answersOnly hr hreach hd, by rw [hd.toNat_ofNat, hwords]; omega⟩

end

/-- Settles O34: byte 0 is as before, so the readers look for the block where `XPUT` stored it. -/
theorem extensionBlockReadsBack : Obligations.ExtensionBlockReadsBack := by
  intro s profile data hr hx hn hl
  have hexec : exec (.xput profile data) s = .next (s.storeBlock profile data).done := by
    rw [exec_xput, withPacket_ready hr, if_neg (not_exceedsCapacity_iff.mpr ⟨hn, hl⟩)]
  have hr' : Ready (s.storeBlock profile data).done := hr
  have h0 : (s.storeBlock profile data).done.byte 0 = s.byte 0 := s.storeBlock_byte_zero profile data
  have hcount : csrcCount (s.storeBlock profile data).done.byte = csrcCount s.byte := by rw [csrcCount, h0]
  have hoff : extensionOffset (s.storeBlock profile data).done.byte = extensionOffset s.byte := by rw [extensionOffset, hcount]
  have hx' : hasExtension (s.storeBlock profile data).done.byte := by rwa [hasExtension, h0]
  have hb : HoldsBlock (s.storeBlock profile data).done (extensionOffset (s.storeBlock profile data).done.byte) profile data := by
    rw [hoff]
    exact s.storeBlock_holdsBlock profile hn
  have hl' : extensionOffset (s.storeBlock profile data).done.byte + 4 + 4 * ceil4 data.length ≤ s.len.toNat := by rwa [hoff]
  have hhead := hlen_of_block hr' hx' hb hl'
  rw [hcount] at hhead
  exact ⟨_, hexec, xprof_of_block hr' hx' hb hl', xview_of_block hr' hx' hb hl', hhead⟩

end Sys2Proof.Machine
end
